-- ==== Sys2Proof/Word.lean ====
section
/-! DEFINITION. The two word types of the block: a byte and a command word. -/

namespace Sys2Proof

/-- An unsigned 8-bit value 0..255 (00_scope.md R9). -/
abbrev Byte := BitVec 8

/-- A 16-bit command word (30_encoding.md R65). -/
abbrev Word := BitVec 16

end Sys2Proof
end

