-- ==== Sys2Proof/Config.lean ====
section
/-! DEFINITION. What an implementation fixes: the framing constants (00_scope.md R7) and the parameters (00_scope.md R8). -/

namespace Sys2Proof

/-- First sync byte, `SYNC0` (00_scope.md R7). -/
def Config.sync0 : Byte := 0xCC

/-- Second sync byte, `SYNC1` (00_scope.md R7). -/
def Config.sync1 : Byte := 0xAA

/-- `MAXLEN`, the largest payload in bytes and the number of bytes of `DBUF` (00_scope.md R7; 10_state.md R25). -/
abbrev Config.maxLen : Nat := 255

/-- What a byte of `DBUF` that nothing has written reads as. DESIGN CHOICE (log entry 6, unsafe): the spec leaves the
power-on contents unspecified (10_state.md R30) and no rule reads them (10_state.md R25). -/
def Config.dbufBlank : Byte := 0x00

/-- Which numbers name a timestamp of the environment: a parameter (00_scope.md R8), so a predicate nothing can see. -/
opaque Config.isTimestamp : Nat → Bool

/-- `TS`, the type of an enqueue timestamp: a parameter, open in the spec (00_scope.md R8; 42_fifo.md R147;
93_implementation_defined.md section 1). Its values are the numbers the environment names, one at least, which is 0.
DESIGN CHOICE (log entry 8): a type of plain data, so at most countable; how many values it has, and whether finitely
many, is open. -/
structure Config.TS where
  num : Nat
  legal : num = 0 ∨ Config.isTimestamp num = true
  deriving DecidableEq, Repr

/-- The timestamp that is in every `TS`. It stands on `now` where no command reads it (10_state.md R28). -/
def Config.someTime : Config.TS := { num := 0, legal := Or.inl rfl }

/-- The timestamp a number names, if it names one. -/
def Config.timestampOf (n : Nat) : Option Config.TS :=
  if h : n = 0 ∨ Config.isTimestamp n = true then some { num := n, legal := h } else none

/-- The two FIFO limits, parameters of a realization (00_scope.md R8); `none` is `unbounded`. -/
structure Config.Limits where
  /-- `QCAP`, the capacity in entries. -/
  qcap : Option Nat
  /-- `QMAXB`, the largest byte count of one entry. -/
  qmaxb : Option Nat
  deriving DecidableEq, Repr

/-- This hardware's limits: both unbounded (00_scope.md R8; 42_fifo.md R148, R149; log entry 9). -/
def Config.limits : Config.Limits := { qcap := none, qmaxb := none }

/-- How many producer agents there are beyond the first: open in the spec (00_scope.md R8), so a value nothing can
see (log entry 11). -/
opaque Config.moreProducers : Nat

/-- `PRODUCERS`, the number of agents that may enqueue besides the worker, at least 1 (00_scope.md R8). -/
def Config.producers : Nat := Config.moreProducers + 1

end Sys2Proof
end

