-- ==== Sys2Proof/Syntax.lean ====
section
/-! DEFINITION. The ten commands (30_encoding.md R67), the agents (10_state.md R29) and what the outside presents to the block
(10_state.md R28). -/

namespace Sys2Proof

/-- The ten commands of the opcode map (30_encoding.md R67), each with the operands it reads (R68). The types fix every
width, so every term is an instruction the command interface can carry. -/
inductive Instr where
  /-- `DEC.BYTE b`: feed one received byte (40_deframer.md R91). -/
  | decByte (b : Byte)
  /-- `DEC.RESET`: abandon a partial frame (40_deframer.md R100). -/
  | decReset
  /-- `ENC.P [opnd]`: frame a payload (41_framer.md R121). -/
  | encP (opnd : List Byte)
  /-- `ENC.F [opnd]`: pass a whole frame through (41_framer.md R122). -/
  | encF (opnd : List Byte)
  /-- `ENC.HP "opnd"`: frame a payload given as hex text (41_framer.md R124). -/
  | encHp (opnd : List Byte)
  /-- `ENC.HF "opnd"`: pass a whole frame given as hex text through (41_framer.md R125). -/
  | encHf (opnd : List Byte)
  /-- `Q.ENQ [opnd], now=now`: append an entry (42_fifo.md R140). -/
  | qEnq (opnd : List Byte) (now : Config.TS)
  /-- `Q.DEQ`: remove and return the oldest entry (42_fifo.md R142). -/
  | qDeq
  /-- `Q.CLR`: discard every entry (42_fifo.md R144). -/
  | qClr
  /-- `BLK.RESET`: reset both stateful units (43_control.md R160). -/
  | blkReset
  deriving DecidableEq, Repr

/-- An agent that issues commands (10_state.md R29): the worker, or a producer. The number of a producer only tells
producers apart; the block has no agent identifiers (60_exceptions.md R186). -/
inductive Agent where
  | worker
  | producer (n : Nat)
  deriving DecidableEq, Repr

/-- A command as presented on the command port: the triple `(cmd, opnd, now)` of 10_state.md R28 and the agent that
issues it (R29). -/
structure Command where
  agent : Agent
  cmd : Word
  opnd : List Byte
  now : Config.TS
  deriving DecidableEq, Repr

/-- What the outside can do to the block, one at a time: issue a command (10_state.md R28) or cycle the power
(70_reset_and_hazards.md R200, R201). -/
inductive Stimulus where
  | command (c : Command)
  | powerOn
  deriving DecidableEq, Repr

end Sys2Proof
end

