-- ==== Sys2Proof/WellFormed.lean ====
section
/-! DEFINITION. What a presented command must satisfy to be a command of the block: its word matches a row of the opcode map
and its agent exists. The operands of an `Instr` carry their widths in their types and have no length limit
(10_state.md R28), so an `Instr` needs no check of its own. -/

namespace Sys2Proof

/-- One row of the opcode map: the words `w` with `w &&& mask = pattern` (30_encoding.md R67). -/
structure OpcodeRow where
  pattern : Word
  mask : Word
  deriving DecidableEq, Repr

/-- The opcode map's `match` and `mask` columns, in its order (30_encoding.md R67). -/
def opcodeRows : List OpcodeRow :=
  [ { pattern := 0x1000, mask := 0xFF00 },
    { pattern := 0x2000, mask := 0xFFFF },
    { pattern := 0x3000, mask := 0xFFFF },
    { pattern := 0x3100, mask := 0xFFFF },
    { pattern := 0x3200, mask := 0xFFFF },
    { pattern := 0x3300, mask := 0xFFFF },
    { pattern := 0x4000, mask := 0xFFFF },
    { pattern := 0x5000, mask := 0xFFFF },
    { pattern := 0x6000, mask := 0xFFFF },
    { pattern := 0x7000, mask := 0xFFFF } ]

/-- The word `w` matches the row `r` (30_encoding.md R67). -/
def OpcodeRow.covers (r : OpcodeRow) (w : Word) : Bool := w &&& r.mask == r.pattern

/-- A word is legal when some row matches it; every other word is illegal (30_encoding.md R69). -/
def legalWord (w : Word) : Bool := opcodeRows.any (fun r => r.covers w)

/-- An agent exists when it is the worker or one of the `producers` producers (10_state.md R29; 00_scope.md R8). -/
def Agent.wf (producers : Nat) : Agent → Bool
  | .worker => true
  | .producer n => decide (n < producers)

/-- A presented command is well formed when its word is legal and its agent exists. -/
def Command.wf (producers : Nat) (c : Command) : Bool := legalWord c.cmd && c.agent.wf producers

end Sys2Proof
end

