-- ==== Sys2Proof/Decode.lean ====
section
/-! DEFINITION. The decoder of command words by their fields (30_encoding.md R66 to R69), the encoder, and the host's reading of a
table word. -/

namespace Sys2Proof

/-- The field `op`, bits 15:12 (30_encoding.md R66). -/
def opField (w : Word) : BitVec 4 := w.extractLsb' 12 4

/-- The field `z1`, bits 11:10, reserved (30_encoding.md R66). -/
def z1Field (w : Word) : BitVec 2 := w.extractLsb' 10 2

/-- The field `h`, bit 9: the operand is hex text (30_encoding.md R66). -/
def hField (w : Word) : Bool := w.getLsbD 9

/-- The field `f`, bit 8: the operand is a whole frame (30_encoding.md R66). -/
def fField (w : Word) : Bool := w.getLsbD 8

/-- The field `b`, bits 7:0 (30_encoding.md R66). -/
def bField (w : Word) : Byte := w.extractLsb' 0 8

/-- Why a word is no command (30_encoding.md R69). The block answers both alike, with `IllegalOp`. -/
inductive DecodeError where
  /-- `op` is 0x0 or 0x8 .. 0xF: the group is not assigned. -/
  | unassignedGroup
  /-- A bit that R66 says must be 0 in the word's group is 1. -/
  | reservedBitSet
  deriving DecidableEq, Repr

/-- Bits 11:8 are all 0, as `DEC.BYTE` asks (30_encoding.md R66, R67). -/
def noForm (w : Word) : Bool := z1Field w == 0 && !hField w && !fField w

/-- A command with no field in bits 11:0: it stands when they are all 0 (30_encoding.md R67). -/
def plainWord (w : Word) (i : Instr) : Except DecodeError Instr :=
  if noForm w && bField w == 0 then .ok i else .error .reservedBitSet

/-- The `ENC` group: `h` and `f` select the input form (30_encoding.md R68; 41_framer.md R120). -/
def decodeEnc (w : Word) (opnd : List Byte) : Except DecodeError Instr :=
  if z1Field w == 0 && bField w == 0 then
    match hField w, fField w with
    | false, false => .ok (.encP opnd)
    | false, true => .ok (.encF opnd)
    | true, false => .ok (.encHp opnd)
    | true, true => .ok (.encHf opnd)
  else .error .reservedBitSet

/-- The command that the triple `(cmd, opnd, now)` stands for, or why its word is illegal (30_encoding.md R67 to R69).
A command that reads no operand ignores `opnd` and `now` (10_state.md R28). -/
def decode (w : Word) (opnd : List Byte) (now : Config.TS) : Except DecodeError Instr :=
  if opField w = 0x1 then
    if noForm w then .ok (.decByte (bField w)) else .error .reservedBitSet
  else if opField w = 0x2 then plainWord w .decReset
  else if opField w = 0x3 then decodeEnc w opnd
  else if opField w = 0x4 then plainWord w (.qEnq opnd now)
  else if opField w = 0x5 then plainWord w .qDeq
  else if opField w = 0x6 then plainWord w .qClr
  else if opField w = 0x7 then plainWord w .blkReset
  else .error .unassignedGroup

/-- A command word with its fields in their places and every other bit 0 (30_encoding.md R66). -/
def layout (op : BitVec 4) (h f : Bool) (b : Byte) : Word :=
  (op.setWidth 16 <<< 12) ||| ((BitVec.ofBool h).setWidth 16 <<< 9) ||| ((BitVec.ofBool f).setWidth 16 <<< 8)
    ||| b.setWidth 16

/-- The command word of an instruction (30_encoding.md R67). -/
def encodeWord : Instr → Word
  | .decByte b => layout 0x1 false false b
  | .decReset => layout 0x2 false false 0
  | .encP _ => layout 0x3 false false 0
  | .encF _ => layout 0x3 false true 0
  | .encHp _ => layout 0x3 true false 0
  | .encHf _ => layout 0x3 true true 0
  | .qEnq _ _ => layout 0x4 false false 0
  | .qDeq => layout 0x5 false false 0
  | .qClr => layout 0x6 false false 0
  | .blkReset => layout 0x7 false false 0

/-- The operand byte sequence of an instruction, empty for one that reads none (30_encoding.md R68). -/
def encodeOpnd : Instr → List Byte
  | .encP opnd => opnd
  | .encF opnd => opnd
  | .encHp opnd => opnd
  | .encHf opnd => opnd
  | .qEnq opnd _ => opnd
  | .decByte _ => []
  | .decReset => []
  | .qDeq => []
  | .qClr => []
  | .blkReset => []

/-- The `now` input an instruction is presented with; only `Q.ENQ` reads it (30_encoding.md R68), and
`Config.someTime` stands where it is ignored. -/
def encodeNow : Instr → Config.TS
  | .qEnq _ now => now
  | .decByte _ => Config.someTime
  | .decReset => Config.someTime
  | .encP _ => Config.someTime
  | .encF _ => Config.someTime
  | .encHp _ => Config.someTime
  | .encHf _ => Config.someTime
  | .qDeq => Config.someTime
  | .qClr => Config.someTime
  | .blkReset => Config.someTime

/-- The presented command that agent `a` issues to have `i` performed (10_state.md R28). -/
def encode (a : Agent) (i : Instr) : Command :=
  { agent := a, cmd := encodeWord i, opnd := encodeOpnd i, now := encodeNow i }

/-- The operand bytes among the bits above the command word, one per byte from bit 16 on; none when the row has 16 bits
(log entry 13). -/
def tableOpnd (nbits w : Nat) : List Byte :=
  (List.range ((nbits - 16) / 8)).map (fun k => BitVec.ofNat 8 (w >>> (16 + 8 * k)))

/-- The command presented for the bits `w` of an opcode-table row: the worker issues it at `Config.someTime`
(log entry 13). -/
def tableCommand (nbits w : Nat) : Command :=
  { agent := .worker, cmd := BitVec.ofNat 16 w, opnd := tableOpnd nbits w, now := Config.someTime }

/-- The instruction the decoder reads from the bits `w` of an opcode-table row. -/
def decodeTableWord (nbits w : Nat) : Option Instr :=
  (decode (tableCommand nbits w).cmd (tableCommand nbits w).opnd (tableCommand nbits w).now).toOption

end Sys2Proof
end

