-- ==== Sys2Proof/Machine/State.lean ====
section
/-! DEFINITION. The state of the block (10_state.md R20), the responses it gives (30_encoding.md R70), the ways a step can stop,
and the state after power-on reset (10_state.md R30). -/

namespace Sys2Proof.Machine

/-- `DSTATE`, the five decoder states (10_state.md R22). Codes 5 to 7 are unreachable and have no value here
(log entry 10). -/
inductive DState where
  /-- Discarding bytes until a `0xCC`. -/
  | desync
  /-- One `0xCC` seen, waiting for `0xAA`. -/
  | syncMark
  /-- The next byte is the declared payload length. -/
  | synced
  /-- Accumulating payload bytes. -/
  | reading
  /-- The next byte is compared with the computed checksum. -/
  | verifyChecksum
  deriving DecidableEq, Repr

/-- One entry of the FIFO: the enqueue timestamp and the opaque bytes (10_state.md R26). -/
structure Entry where
  ts : Config.TS
  bytes : List Byte
  deriving DecidableEq, Repr

/-- The errors a command can end in, with no state change (30_encoding.md R71, kind `ERROR`). -/
inductive ErrorKind where
  | invalidEncoding
  | payloadTooLong
  | illegalOp
  deriving DecidableEq, Repr

/-- The faults of the FIFO in a finite realization (30_encoding.md R71, kind `FAULTED`). -/
inductive FaultKind where
  | queueOverflow
  | entryTooLong
  deriving DecidableEq, Repr

/-- The response of one command (30_encoding.md R70). -/
inductive Response where
  | none
  | deliver (payload : List Byte)
  | reject (len rxCsum expCsum : Byte)
  | data (bytes : List Byte)
  | entry (ts : Config.TS) (bytes : List Byte)
  | empty
  | error (code : ErrorKind)
  | faulted (code : BitVec 2)
  deriving DecidableEq, Repr

/-- The state. The first six fields are the spec's, all of it (10_state.md R20); the last four are the spec's inputs,
outputs and model-level mark, which are no state of the hardware but must be held here because a step takes and gives
nothing but a state (log entries 1, 2, 3, 5). -/
structure State where
  /-- `DSTATE` (10_state.md R22). -/
  dstate : DState
  /-- `DLEN`, the declared payload length (10_state.md R23). -/
  dlen : Byte
  /-- `DCNT`, the number of payload bytes accumulated (10_state.md R24). -/
  dcnt : Byte
  /-- `DBUF`, the payload buffer, indices 0..254 (10_state.md R25), as (index, byte) pairs in canonical form:
  indices rising, no entry equal to `Config.dbufBlank`. -/
  dbuf : List Host.Cell
  /-- `Q`, the FIFO, oldest entry first (10_state.md R26). -/
  q : List Entry
  /-- `FAULT`, 0 or the code of the first fault (10_state.md R27). -/
  fault : BitVec 2
  /-- The refusal mark, kept for the rest of the run (60_exceptions.md R177; 70_reset_and_hazards.md R214). -/
  refusal : Bool
  /-- What is presented to the command port and not yet performed, in linearization order (10_state.md R28;
  20_memory.md R48). -/
  port : List Stimulus
  /-- The agent that issued the command being performed (10_state.md R29). -/
  issuer : Agent
  /-- The responses given so far, oldest first (10_state.md R28; 70_reset_and_hazards.md R214). -/
  responses : List Response
  deriving DecidableEq, Repr

/-- Why a step can stop with a fault. The block's own faults are no stop: they are state and a response
(60_exceptions.md R175, R176). -/
inductive Fault where
  /-- Raised by `DEC.BYTE` in `Reading` with `DCNT = 255`: it would write `DBUF[255]`, which does not exist
  (10_state.md R25). Safe: 10_state.md R31 rules that state out, and the model stops where the spec says nothing
  (log entry 7). -/
  | dbufIndexOutOfRange
  deriving DecidableEq, Repr

/-- Why a step can be refused. -/
inductive Refusal where
  /-- Raised by an arm of `exec` whose instruction has no meaning yet; no arm is so now. Safe: the model stops. -/
  | notModelled (mnemonic : String)
  deriving DecidableEq, Repr

/-- The state after power-on reset (10_state.md R30; 70_reset_and_hazards.md R200): `Desync`, `DLEN = 0`, `DCNT = 0`,
`Q` empty, `FAULT = 0`. `DBUF` is unspecified there and blank here (log entry 6). The model's own fields start with
nothing presented, nothing answered, no mark (log entries 1, 2, 3, 5). -/
def State.reset : State :=
  { dstate := .desync
    dlen := 0
    dcnt := 0
    dbuf := []
    q := []
    fault := 0
    refusal := false
    port := []
    issuer := .worker
    responses := [] }

end Sys2Proof.Machine
end

