-- ==== Sys2Proof/Machine/Operands.lean ====
section
/-! DEFINITION. Operand forms (30_encoding.md R68): the checksum (00_scope.md R12), the frame (30_encoding.md R60, R62), hex text
(41_framer.md R123), and the numeric codes of 10_state.md R22 and 30_encoding.md R70, R71. -/

namespace Sys2Proof.Machine

/-- `sum(p)`, as an unbounded natural number (00_scope.md R10). -/
def byteSum (p : List Byte) : Nat := (p.map BitVec.toNat).sum

/-- `csum8(n, p)` (00_scope.md R12). -/
def csum8 (n : Byte) (p : List Byte) : Byte := BitVec.ofNat 8 ((256 - (n.toNat + byteSum p) % 256) % 256)

/-- The frame of a payload: `CC AA len payload csum` (30_encoding.md R60; 41_framer.md R121). -/
def frameOf (p : List Byte) : List Byte :=
  Config.sync0 :: Config.sync1 :: BitVec.ofNat 8 p.length :: (p ++ [csum8 (BitVec.ofNat 8 p.length) p])

/-- The four conditions of a valid frame (30_encoding.md R62). -/
def validFrame (f : List Byte) : Bool :=
  match f with
  | s0 :: s1 :: n :: rest =>
    s0 == Config.sync0 && s1 == Config.sync1 && rest.length == n.toNat + 1
      && rest[n.toNat]? == some (csum8 n (rest.take n.toNat))
  | _ => false

/-- `hexval` of an ASCII character code, for the accepted characters only (41_framer.md R123). -/
def hexVal (c : Byte) : Option Byte :=
  if 0x30 ≤ c ∧ c ≤ 0x39 then some (c - 0x30)
  else if 0x61 ≤ c ∧ c ≤ 0x66 then some (c - 0x61 + 10)
  else if 0x41 ≤ c ∧ c ≤ 0x46 then some (c - 0x41 + 10)
  else none

/-- Hex pairs, the first character of a pair the high nibble (41_framer.md R123); `none` on an odd length or another
character. -/
def hexPairs : List Byte → Option (List Byte)
  | [] => some []
  | [_] => none
  | hi :: lo :: rest =>
    match hexVal hi, hexVal lo, hexPairs rest with
    | some h, some l, some bytes => some ((16 * h + l) :: bytes)
    | _, _, _ => none

/-- `hexdecode` (41_framer.md R123). -/
def hexDecode (s : List Byte) : Except ErrorKind (List Byte) :=
  match hexPairs s with
  | some bytes => .ok bytes
  | none => .error .invalidEncoding

/-- The numeric value of a decoder state (10_state.md R22). No command reads it. -/
def dstateCode : DState → BitVec 3
  | .desync => 0
  | .syncMark => 1
  | .synced => 2
  | .reading => 3
  | .verifyChecksum => 4

/-- The code of an error (30_encoding.md R71). -/
def errorCode : ErrorKind → Nat
  | .invalidEncoding => 1
  | .payloadTooLong => 2
  | .illegalOp => 3

/-- The code of a fault, as `FAULT` holds it (30_encoding.md R71). -/
def faultCode : FaultKind → BitVec 2
  | .queueOverflow => 1
  | .entryTooLong => 2

/-- The kind code of a response (30_encoding.md R70). -/
def kindCode : Response → Nat
  | .none => 0
  | .deliver _ => 1
  | .reject _ _ _ => 2
  | .data _ => 3
  | .entry _ _ => 4
  | .empty => 5
  | .error _ => 6
  | .faulted _ => 7

end Sys2Proof.Machine
end

