-- ==== Sys2Proof/Machine/Flags.lean ====
section
/-! DEFINITION. The block has no condition flags (10_state.md R21). What takes their place are the conditions that select a
command's outcome (60_exceptions.md R178), each written once here. -/

namespace Sys2Proof.Machine

/-- A fault has been raised and the block is stuck (60_exceptions.md R176). -/
def isFaulted (s : State) : Bool := s.fault != 0

/-- The agents that may issue `DEC.BYTE`, `DEC.RESET`, `Q.DEQ`, `Q.CLR` and `BLK.RESET`: the worker alone
(10_state.md R29). -/
def workerOnly : Agent → Bool
  | .worker => true
  | .producer _ => false

/-- The agents that may issue `Q.ENQ` and the `ENC` commands: every agent (10_state.md R29). -/
def anyAgent : Agent → Bool
  | .worker => true
  | .producer _ => true

/-- A payload longer than its one-byte length field can say (41_framer.md R121). -/
def payloadTooLong (p : List Byte) : Bool := Config.maxLen < p.length

/-- The FIFO is full, when `QCAP` is finite: the test of the pseudocode of 42_fifo.md R140 (R148). -/
def fifoFull (lim : Config.Limits) (q : List Entry) : Bool :=
  match lim.qcap with
  | some cap => q.length = cap
  | none => false

/-- An entry exceeds `QMAXB`, when it is finite (42_fifo.md R149). -/
def entryTooLong (lim : Config.Limits) (bytes : List Byte) : Bool :=
  match lim.qmaxb with
  | some most => most < bytes.length
  | none => false

end Sys2Proof.Machine
end

