-- ==== Sys2Proof/Machine/Ops.lean ====
section
/-! DEFINITION. The shared operations: the payload buffer (20_memory.md R44), responding, errors, faults and refusals
(60_exceptions.md R172 to R178), the resets (70_reset_and_hazards.md R201) and taking the next stimulus from the port. -/

namespace Sys2Proof.Machine

/-- The canonical form of the cells from index `lo` up: indices rising and below 255, no blank byte listed. -/
def Memory.wfFrom : Nat → List Host.Cell → Bool
  | _, [] => true
  | lo, (a, b) :: rest => decide (lo ≤ a) && decide (a < Config.maxLen) && b != Config.dbufBlank && Memory.wfFrom (a + 1) rest

/-- The canonical form of `DBUF`. -/
def Memory.wf (m : List Host.Cell) : Bool := Memory.wfFrom 0 m

/-- The byte listed at an index, blank where none is listed. -/
def Memory.byteAt : List Host.Cell → Nat → Byte
  | [], _ => Config.dbufBlank
  | (a', b) :: rest, a => if a = a' then b else Memory.byteAt rest a

/-- `MemRead(a, 1)`: byte `a` of `DBUF` (00_scope.md R11); there is none from index 255 up (10_state.md R25). -/
def Memory.read (m : List Host.Cell) (a : Nat) : Option Byte :=
  if a < Config.maxLen then some (Memory.byteAt m a) else none

/-- The cells with byte `b` at index `a`, in canonical form again. -/
def Memory.put : List Host.Cell → Nat → Byte → List Host.Cell
  | [], a, b => if b = Config.dbufBlank then [] else [(a, b)]
  | (a', b') :: rest, a, b =>
    if a < a' then (if b = Config.dbufBlank then (a', b') :: rest else (a, b) :: (a', b') :: rest)
    else if a = a' then (if b = Config.dbufBlank then rest else (a, b) :: rest)
    else (a', b') :: Memory.put rest a b

/-- `MemWrite(a, 1, b)` (00_scope.md R11), `none` where `DBUF` has no byte `a` (10_state.md R25). -/
def Memory.write (m : List Host.Cell) (a : Nat) (b : Byte) : Option (List Host.Cell) :=
  if a < Config.maxLen then some (Memory.put m a b) else none

/-- `DBUF[0..n)` (20_memory.md R44), for `n` up to 255. -/
def Memory.prefixBytes (m : List Host.Cell) (n : Nat) : List Byte := (List.range n).map (Memory.byteAt m)

/-- `respond r` (00_scope.md R11): the response joins those given before. -/
def State.respond (s : State) (r : Response) : State := { s with responses := s.responses ++ [r] }

/-- `raise Error(k)`: the response, and no other effect (60_exceptions.md R172). -/
def State.raiseError (s : State) (k : ErrorKind) : State := s.respond (.error k)

/-- `raise Fault(k)`: `FAULT` takes the code, which is also the response; nothing else is written
(60_exceptions.md R175). -/
def State.raiseFault (s : State) (k : FaultKind) : State :=
  ({ s with fault := faultCode k }).respond (.faulted (faultCode k))

/-- A command of an agent that may not issue it: the refusal mark is set and nothing is performed, not even a response
given (60_exceptions.md R177; log entry 5). -/
def State.markRefused (s : State) : State := { s with refusal := true }

/-- The result of a framer command as its response: `DATA` or an error (30_encoding.md R70). -/
def State.respondResult (s : State) : Except ErrorKind (List Byte) → State
  | .ok bytes => s.respond (.data bytes)
  | .error k => s.raiseError k

/-- The first three outcomes in priority order: a block that has faulted answers so (60_exceptions.md R176), then a
command of an agent `allowed` leaves out is refused (R177), and only then the command's own rule runs
(60_exceptions.md R178 items 1, 3 and 7; item 2, the illegal word, never meets item 3's check). -/
def performed (allowed : Agent → Bool) (rule : State → Host.Outcome State Fault Refusal) (s : State) :
    Host.Outcome State Fault Refusal :=
  if isFaulted s then .next (s.respond (.faulted s.fault))
  else if allowed s.issuer then rule s
  else .next s.markRefused

/-- The deframer with an empty accumulator in `Desync` (40_deframer.md R98, R100). -/
def State.clearDeframer (s : State) : State := { s with dstate := .desync, dlen := 0, dcnt := 0 }

/-- The FIFO holding the entries `q`. -/
def State.withFifo (s : State) (q : List Entry) : State := { s with q := q }

/-- An entry appended at the FIFO's tail (42_fifo.md R140). -/
def State.pushEntry (s : State) (e : Entry) : State := s.withFifo (s.q ++ [e])

/-- The FIFO emptied (42_fifo.md R144). -/
def State.clearFifo (s : State) : State := s.withFifo []

/-- Power-on reset: every state element takes its reset value (70_reset_and_hazards.md R200, R201). What is still to
come on the port, what has been answered and the refusal mark stay (log entry 12). -/
def State.powerOn (s : State) : State :=
  { State.reset with refusal := s.refusal, port := s.port, responses := s.responses }

/-- The next stimulus and the state without it, if one is presented (20_memory.md R48). -/
def takeStimulus (s : State) : Option (Stimulus × State) :=
  match s.port with
  | [] => none
  | x :: rest => some (x, { s with port := rest })

/-- The state in which a command of agent `a` is performed. -/
def State.issuedBy (s : State) (a : Agent) : State := { s with issuer := a }

end Sys2Proof.Machine
end

