-- ==== Sys2Proof/Machine/Control.lean ====
section
/-! DEFINITION. The block control command `BLK.RESET` (43_control.md R160) and the illegal words (R161). -/

namespace Sys2Proof.Machine

/-- `BLK.RESET`: both stateful units at once; `FAULT` is not written (43_control.md R160). -/
def execBlkReset (s : State) : Host.Outcome State Fault Refusal :=
  performed workerOnly (fun s => .next (s.clearDeframer.clearFifo.respond .none)) s

/-- A word of no command: `IllegalOp` for every agent, and no state change (43_control.md R161; 60_exceptions.md R178
item 2 comes before the agent check). -/
def execIllegal (s : State) : Host.Outcome State Fault Refusal :=
  performed anyAgent (fun s => .next (s.raiseError .illegalOp)) s

end Sys2Proof.Machine
end

