-- ==== Sys2Proof/Machine/Deframer.lean ====
section
/-! DEFINITION. The deframer's commands: `DEC.BYTE` (40_deframer.md R90 to R99) and `DEC.RESET` (R100). -/

namespace Sys2Proof.Machine

/-- A byte in `Desync` (40_deframer.md R92). -/
def byteInDesync (b : Byte) (s : State) : State :=
  { s with dstate := if b = Config.sync0 then .syncMark else .desync }

/-- A byte in `SyncMark` (40_deframer.md R93). -/
def byteInSyncMark (b : Byte) (s : State) : State :=
  { s with
    dstate := if b = Config.sync1 then .synced else if b = Config.sync0 then .syncMark else .desync }

/-- A byte in `Synced`: the declared length, whatever its value (40_deframer.md R94). -/
def byteInSynced (b : Byte) (s : State) : State :=
  { s with dlen := b, dcnt := 0, dstate := if b = 0 then .verifyChecksum else .reading }

/-- A byte in `Reading`, stored at `DBUF[DCNT]`, with `m` the buffer that holds it (40_deframer.md R95). -/
def byteInReading (m : List Host.Cell) (s : State) : State :=
  { s with
    dbuf := m, dcnt := s.dcnt + 1, dstate := if s.dcnt + 1 = s.dlen then .verifyChecksum else .reading }

/-- What the checksum byte `b` is answered with: the payload, or the diagnostic (40_deframer.md R96, R97). -/
def verdict (b : Byte) (s : State) : Response :=
  if b = csum8 s.dlen (Memory.prefixBytes s.dbuf s.dlen.toNat) then
    .deliver (Memory.prefixBytes s.dbuf s.dlen.toNat)
  else .reject s.dlen b (csum8 s.dlen (Memory.prefixBytes s.dbuf s.dlen.toNat))

/-- One transition of the deframer (40_deframer.md R90, R91). -/
def feedByte (b : Byte) (s : State) : Host.Outcome State Fault Refusal :=
  match s.dstate with
  | .desync => .next ((byteInDesync b s).respond .none)
  | .syncMark => .next ((byteInSyncMark b s).respond .none)
  | .synced => .next ((byteInSynced b s).respond .none)
  | .reading =>
    match Memory.write s.dbuf s.dcnt.toNat b with
    | some m => .next ((byteInReading m s).respond .none)
    | none => .fault .dbufIndexOutOfRange
  | .verifyChecksum => .next (s.clearDeframer.respond (verdict b s))

/-- `DEC.BYTE b` (40_deframer.md R91). -/
def execDecByte (b : Byte) (s : State) : Host.Outcome State Fault Refusal := performed workerOnly (feedByte b) s

/-- `DEC.RESET` (40_deframer.md R100). -/
def execDecReset (s : State) : Host.Outcome State Fault Refusal :=
  performed workerOnly (fun s => .next (s.clearDeframer.respond .none)) s

end Sys2Proof.Machine
end

