-- ==== Sys2Proof/Machine/Fifo.lean ====
section
/-! DEFINITION. The command FIFO's commands `Q.ENQ`, `Q.DEQ`, `Q.CLR` (42_fifo.md R140 to R149). -/

namespace Sys2Proof.Machine

/-- The enqueue of a realization with the limits `lim`: overflow, then entry size, then the append
(42_fifo.md R140, R148, R149; 60_exceptions.md R180). -/
def enqueue (lim : Config.Limits) (bytes : List Byte) (t : Config.TS) (s : State) : State :=
  if fifoFull lim s.q then s.raiseFault .queueOverflow
  else if entryTooLong lim bytes then s.raiseFault .entryTooLong
  else (s.pushEntry { ts := t, bytes := bytes }).respond .none

/-- The non-blocking dequeue (42_fifo.md R142). -/
def dequeue (s : State) : State :=
  match s.q with
  | [] => s.respond .empty
  | e :: rest => (s.withFifo rest).respond (.entry e.ts e.bytes)

/-- `Q.ENQ [bytes], now=t` in a realization with the limits `lim` (42_fifo.md R140). -/
def enqueueCommand (lim : Config.Limits) (bytes : List Byte) (t : Config.TS) (s : State) :
    Host.Outcome State Fault Refusal :=
  performed anyAgent (fun s => .next (enqueue lim bytes t s)) s

/-- `Q.ENQ [bytes], now=t` of this hardware, whose limits are unbounded (42_fifo.md R140, R146). -/
def execQEnq (bytes : List Byte) (t : Config.TS) (s : State) : Host.Outcome State Fault Refusal :=
  enqueueCommand Config.limits bytes t s

/-- `Q.DEQ` (42_fifo.md R142). -/
def execQDeq (s : State) : Host.Outcome State Fault Refusal := performed workerOnly (fun s => .next (dequeue s)) s

/-- `Q.CLR` (42_fifo.md R144). -/
def execQClr (s : State) : Host.Outcome State Fault Refusal :=
  performed workerOnly (fun s => .next (s.clearFifo.respond .none)) s

end Sys2Proof.Machine
end

