-- ==== Sys2Proof/Machine/Framer.lean ====
section
/-! DEFINITION. The framer's commands `ENC.P`, `ENC.F`, `ENC.HP`, `ENC.HF` (41_framer.md R120 to R126). -/

namespace Sys2Proof.Machine

/-- The frame of a payload, or the error of one too long for the length byte (41_framer.md R121). -/
def framePayload (p : List Byte) : Except ErrorKind (List Byte) :=
  if payloadTooLong p then .error .payloadTooLong else .ok (frameOf p)

/-- The frame of a payload given as hex text, decoded before its length is checked (41_framer.md R124;
60_exceptions.md R180). -/
def frameHexPayload (s : List Byte) : Except ErrorKind (List Byte) :=
  match hexDecode s with
  | .ok p => framePayload p
  | .error k => .error k

/-- `ENC.P [p]` (41_framer.md R121). -/
def execEncP (p : List Byte) (s : State) : Host.Outcome State Fault Refusal :=
  performed anyAgent (fun s => .next (s.respondResult (framePayload p))) s

/-- `ENC.F [f]`: unchanged and unvalidated (41_framer.md R122). -/
def execEncF (f : List Byte) (s : State) : Host.Outcome State Fault Refusal :=
  performed anyAgent (fun s => .next (s.respond (.data f))) s

/-- `ENC.HP "t"` (41_framer.md R124). -/
def execEncHp (t : List Byte) (s : State) : Host.Outcome State Fault Refusal :=
  performed anyAgent (fun s => .next (s.respondResult (frameHexPayload t))) s

/-- `ENC.HF "t"` (41_framer.md R125). -/
def execEncHf (t : List Byte) (s : State) : Host.Outcome State Fault Refusal :=
  performed anyAgent (fun s => .next (s.respondResult (hexDecode t))) s

end Sys2Proof.Machine
end

