-- ==== Sys2Proof/Machine/Dispatch.lean ====
section
/-! DEFINITION. One arm per instruction, each one call of its meaning. -/

namespace Sys2Proof.Machine

/-- The meaning of an instruction in a state whose `issuer` is the agent that issues it. -/
def exec (i : Instr) (s : State) : Host.Outcome State Fault Refusal :=
  match i with
  | .decByte b => Sys2Proof.Machine.execDecByte b s
  | .decReset => Sys2Proof.Machine.execDecReset s
  | .encP opnd => Sys2Proof.Machine.execEncP opnd s
  | .encF opnd => Sys2Proof.Machine.execEncF opnd s
  | .encHp opnd => Sys2Proof.Machine.execEncHp opnd s
  | .encHf opnd => Sys2Proof.Machine.execEncHf opnd s
  | .qEnq opnd now => Sys2Proof.Machine.execQEnq opnd now s
  | .qDeq => Sys2Proof.Machine.execQDeq s
  | .qClr => Sys2Proof.Machine.execQClr s
  | .blkReset => Sys2Proof.Machine.execBlkReset s

end Sys2Proof.Machine
end

