-- ==== Sys2Proof/Machine/Realization.lean ====
section
/-! DEFINITION. One step over any performer of commands, and the realizations of the block with their own FIFO limits as arguments
(00_scope.md R8; 42_fifo.md R148, R149). This hardware is the one whose limits are `Config.limits`; `exec`, `step` and `core`
are it. -/

namespace Sys2Proof.Machine

/-- One step, in which `run` performs a decoded command. With nothing presented every state element keeps its value
(60_exceptions.md R188; log entry 4). A power-on reset resets (70_reset_and_hazards.md R200). A command is decoded and
performed on behalf of its agent; an illegal word is answered as 43_control.md R161 says. -/
def stepBy (run : Instr → State → Host.Outcome State Fault Refusal) (s : State) : Host.Outcome State Fault Refusal :=
  match takeStimulus s with
  | none => .next s
  | some (.powerOn, s') => .next s'.powerOn
  | some (.command c, s') =>
    match decode c.cmd c.opnd c.now with
    | .ok i => run i (s'.issuedBy c.agent)
    | .error _ => execIllegal (s'.issuedBy c.agent)

/-- The meaning of an instruction in a realization with the limits `lim`: `Q.ENQ` alone depends on them
(42_fifo.md R140). -/
def execIn (lim : Config.Limits) (i : Instr) (s : State) : Host.Outcome State Fault Refusal :=
  match i with
  | .decByte b => execDecByte b s
  | .decReset => execDecReset s
  | .encP opnd => execEncP opnd s
  | .encF opnd => execEncF opnd s
  | .encHp opnd => execEncHp opnd s
  | .encHf opnd => execEncHf opnd s
  | .qEnq opnd now => enqueueCommand lim opnd now s
  | .qDeq => execQDeq s
  | .qClr => execQClr s
  | .blkReset => execBlkReset s

/-- One step of a realization with the limits `lim` (20_memory.md R48). -/
def stepIn (lim : Config.Limits) (s : State) : Host.Outcome State Fault Refusal := stepBy (execIn lim) s

/-- The block as a realization with the limits `lim` (00_scope.md R8). The reset state is the same in all of them
(10_state.md R30). -/
def realization (lim : Config.Limits) : Host.Core :=
  { State := State, Fault := Fault, Refusal := Refusal, step := stepIn lim, reset := State.reset }

end Sys2Proof.Machine
end

