-- ==== Sys2Proof/Machine/Step.lean ====
section
/-! DEFINITION. One step: the next stimulus on the port is performed as one atomic step (20_memory.md R48). -/

namespace Sys2Proof.Machine

/-- One step of this hardware: the next command is performed by `exec`. -/
def step (s : State) : Host.Outcome State Fault Refusal := stepBy exec s

/-- `s` with the command of an opcode-table row presented first on the port (log entries 4 and 13). -/
def State.withFetchWord (s : State) (nbits w : Nat) : State :=
  { s with port := .command (tableCommand nbits w) :: s.port }

end Sys2Proof.Machine
end

