-- ==== Sys2Proof/Machine/Pseudo.lean ====
section
/-! DEFINITION. The pseudo-instructions (30_encoding.md R73) and the environment's reconnection sequence
(70_reset_and_hazards.md R203), as the commands they stand for. The block does not know them: an agent issues their
commands one by one. -/

namespace Sys2Proof.Machine

/-- The pseudo-instructions (30_encoding.md R73). -/
inductive Pseudo where
  | decBytes (bytes : List Byte)
  | sendP (p : List Byte) (now : Config.TS)
  | sendF (f : List Byte) (now : Config.TS)
  | sendHp (t : List Byte) (now : Config.TS)
  | sendHf (t : List Byte) (now : Config.TS)
  deriving DecidableEq, Repr

/-- The commands a pseudo-instruction issues first (30_encoding.md R73). -/
def Pseudo.commands : Pseudo → List Instr
  | .decBytes bytes => bytes.map Instr.decByte
  | .sendP p _ => [.encP p]
  | .sendF f _ => [.encF f]
  | .sendHp t _ => [.encHp t]
  | .sendHf t _ => [.encHf t]

/-- The enqueue a `SEND` issues on a `DATA` response; on any other it stops and enqueues nothing (30_encoding.md R73). -/
def enqueueData (now : Config.TS) : Response → Option Instr
  | .data f => some (.qEnq f now)
  | _ => none

/-- The command a pseudo-instruction issues after the last response to its first commands (30_encoding.md R73). -/
def Pseudo.next : Pseudo → Response → Option Instr
  | .decBytes _, _ => none
  | .sendP _ now, r => enqueueData now r
  | .sendF _ now, r => enqueueData now r
  | .sendHp _ now, r => enqueueData now r
  | .sendHf _ now, r => enqueueData now r

/-- Commands performed one after another for the agent `s.issuer`, up to the first stop. -/
def execAll : List Instr → State → Host.Outcome State Fault Refusal
  | [], s => .next s
  | i :: rest, s =>
    match exec i s with
    | .next t => execAll rest t
    | .fault r => .fault r
    | .refused r => .refused r

/-- A pseudo-instruction issued with no other agent's command between its own. It is one of its schedules: others may
fall between (30_encoding.md R73; 20_memory.md R49). -/
def Pseudo.performAlone (p : Pseudo) (s : State) : Host.Outcome State Fault Refusal :=
  match execAll p.commands s with
  | .next t =>
    match t.responses.getLast? with
    | some r => execAll (p.next r).toList t
    | none => .next t
  | .fault r => .fault r
  | .refused r => .refused r

/-- The environment's duties on a new connection, before it enqueues the first frame: reset the deframer, then clear the
FIFO (70_reset_and_hazards.md R203 items 1 and 2). -/
def reconnect : List Instr := [.decReset, .qClr]

end Sys2Proof.Machine
end

