-- ==== Sys2Proof/Safety.lean ====
section
/-! DEFINITION. What counts as a sound state and a complete run (10_state.md R31; 70_reset_and_hazards.md R214), and the words claims
about streams and the FIFO are written in. -/

namespace Sys2Proof.Machine

/-- The deframer's invariant (10_state.md R31, first three lines). -/
abbrev DeframerInv (s : State) : Prop :=
  ((s.dstate = .desync ∨ s.dstate = .syncMark ∨ s.dstate = .synced) → s.dcnt = 0 ∧ s.dlen = 0) ∧
  (s.dstate = .reading → 1 ≤ s.dlen.toNat ∧ s.dcnt.toNat < s.dlen.toNat) ∧
  (s.dstate = .verifyChecksum → s.dcnt = s.dlen)

/-- `len(Q) <= QCAP` (10_state.md R26, R31). -/
def withinCapacity (lim : Config.Limits) (q : List Entry) : Bool :=
  match lim.qcap with
  | some cap => q.length ≤ cap
  | none => true

/-- The invariant of the block (10_state.md R31), with the canonical form of `DBUF`. -/
abbrev StateInv (s : State) : Prop :=
  DeframerInv s ∧ withinCapacity Config.limits s.q = true ∧ Memory.wf s.dbuf = true

/-- A complete run has performed its last command, with no fault and no refusal mark (70_reset_and_hazards.md R214). -/
abbrev Complete (s : State) : Prop := s.port = [] ∧ s.fault = 0 ∧ s.refusal = false

/-- `k` steps of the machine: the first `k` stimuli of the port performed in order (70_reset_and_hazards.md R214). -/
def runSteps : Nat → State → Host.Outcome State Fault Refusal
  | 0, s => .next s
  | k + 1, s =>
    match step s with
    | .next t => runSteps k t
    | .fault r => .fault r
    | .refused r => .refused r

/-- The commands that belong to the deframer alone (00_scope.md R2). -/
def isDeframerCommand : Instr → Bool
  | .decByte _ => true
  | .decReset => true
  | .encP _ => false
  | .encF _ => false
  | .encHp _ => false
  | .encHf _ => false
  | .qEnq _ _ => false
  | .qDeq => false
  | .qClr => false
  | .blkReset => false

/-- The framer's commands (00_scope.md R2). -/
def isFramerCommand : Instr → Bool
  | .decByte _ => false
  | .decReset => false
  | .encP _ => true
  | .encF _ => true
  | .encHp _ => true
  | .encHf _ => true
  | .qEnq _ _ => false
  | .qDeq => false
  | .qClr => false
  | .blkReset => false

/-- The commands that belong to the FIFO alone (00_scope.md R2). -/
def isFifoCommand : Instr → Bool
  | .decByte _ => false
  | .decReset => false
  | .encP _ => false
  | .encF _ => false
  | .encHp _ => false
  | .encHf _ => false
  | .qEnq _ _ => true
  | .qDeq => true
  | .qClr => true
  | .blkReset => false

/-- The agents that may issue an instruction (10_state.md R29). -/
def mayIssue (a : Agent) (i : Instr) : Bool :=
  match i with
  | .decByte _ => workerOnly a
  | .decReset => workerOnly a
  | .encP _ => anyAgent a
  | .encF _ => anyAgent a
  | .encHp _ => anyAgent a
  | .encHf _ => anyAgent a
  | .qEnq _ _ => anyAgent a
  | .qDeq => workerOnly a
  | .qClr => workerOnly a
  | .blkReset => workerOnly a

/-- The stimuli by which the worker feeds bytes to the deframer, in order (20_memory.md R46). -/
def feed (bytes : List Byte) : List Stimulus := bytes.map (fun b => .command (encode .worker (.decByte b)))

/-- The payloads delivered among some responses, in order (40_deframer.md R104). -/
def deliveries (rs : List Response) : List (List Byte) :=
  rs.filterMap (fun r => match r with | .deliver p => some p | _ => none)

/-- The entries dequeued among some responses, in order (42_fifo.md R142). -/
def dequeued (rs : List Response) : List Entry :=
  rs.filterMap (fun r => match r with | .entry t bytes => some { ts := t, bytes := bytes } | _ => none)

/-- The payload field of a frame's bytes (30_encoding.md R60). -/
def payloadOf (f : List Byte) : List Byte := (f.drop 3).take (f.length - 4)

/-- The entry a stimulus asks the FIFO to append, if it is a `Q.ENQ` (42_fifo.md R140). -/
def enqueuedEntry : Stimulus → Option Entry
  | .powerOn => none
  | .command c =>
    match decode c.cmd c.opnd c.now with
    | .ok (.qEnq bytes t) => some { ts := t, bytes := bytes }
    | _ => none

/-- The stimuli that discard the FIFO's entries: `Q.CLR`, `BLK.RESET` and power-on (70_reset_and_hazards.md R201). -/
def discardsFifo : Stimulus → Bool
  | .powerOn => true
  | .command c =>
    match decode c.cmd c.opnd c.now with
    | .ok .qClr => true
    | .ok .blkReset => true
    | _ => false

/-- Noise that does not hold the adjacent pair `CC AA` (40_deframer.md R103). -/
def noSyncPair : List Byte → Bool
  | [] => true
  | [_] => true
  | a :: b :: rest => !(a == Config.sync0 && b == Config.sync1) && noSyncPair (b :: rest)

/-- A port that is a linearization of what each agent issued: it keeps every agent's own order (20_memory.md R48).
Every such port is allowed (R49). -/
def IsLinearization (issued : Agent → List Command) (port : List Stimulus) : Prop :=
  ∀ a, port.filterMap (fun x => match x with | .command c => if c.agent = a then some c else none | .powerOn => none)
    = issued a

/-- A timestamp replaced throughout: in the FIFO, on the port and in the responses (42_fifo.md R147). -/
def State.mapTime (f : Config.TS → Config.TS) (s : State) : State :=
  { s with
    q := s.q.map (fun e => { e with ts := f e.ts })
    port := s.port.map (fun x => match x with | .command c => .command { c with now := f c.now } | .powerOn => .powerOn)
    responses := s.responses.map (fun r => match r with | .entry t bytes => .entry (f t) bytes | r => r) }

/-- Two states that differ at most in the stale bytes of `DBUF`, those at indices `>= DCNT` (10_state.md R25). -/
def SameButStale (s t : State) : Prop :=
  t = { s with dbuf := t.dbuf } ∧ ∀ k, k < s.dcnt.toNat → Memory.read t.dbuf k = Memory.read s.dbuf k

end Sys2Proof.Machine
end

