-- ==== Sys2Proof/Certificates/Slice0/Obligations.lean ====
section
/-! DEFINITION. The statements for the provers, each from a numbered rule of spec/. -/

open Sys2Proof Sys2Proof.Machine

/-! Reset (10_state.md R30; 70_reset_and_hazards.md R200, R201). -/

/-- 10_state.md R30: the value of every state element after power-on reset; `DBUF`'s contents are unspecified and the
statement says nothing of them. -/
def Obligations.PowerOnResetValues : Prop :=
  State.reset.dstate = .desync ∧ State.reset.dlen = 0 ∧ State.reset.dcnt = 0 ∧ State.reset.q = [] ∧ State.reset.fault = 0

/-- 70_reset_and_hazards.md R201, the table's first row: a power-on reset puts the deframer, the FIFO and `FAULT` in
their reset values from any state, a faulted one included. That the stimuli to come, the responses given and the
refusal mark stay is the model's choice (log entry 12). -/
def Obligations.PowerOnResetsFromEveryState : Prop :=
  ∀ (s : State) (rest : List Stimulus), s.port = .powerOn :: rest →
    ∃ t, step s = .next t ∧ t.dstate = .desync ∧ t.dlen = 0 ∧ t.dcnt = 0 ∧ t.q = [] ∧ t.fault = 0 ∧
      t.port = rest ∧ t.responses = s.responses ∧ t.refusal = s.refusal

/-! Deframer (40_deframer.md). -/

/-- 40_deframer.md R92: in `Desync` a byte other than `0xCC` is discarded and changes no state; `0xCC` leads to
`SyncMark`. -/
def Obligations.DesyncScansForFirstSyncByte : Prop :=
  ∀ (b : Byte) (s : State), s.fault = 0 → s.issuer = .worker → s.dstate = .desync →
    exec (.decByte b) s
      = .next { s with
          dstate := if b = 0xCC then DState.syncMark else DState.desync, responses := s.responses ++ [.none] }

/-- 40_deframer.md R93: the second sync byte, re-arming, and back to `Desync`; and its consequence, that any run of one
or more `0xCC` followed by `0xAA` synchronises. -/
def Obligations.SyncMarkConfirmsRearmsOrFallsBack : Prop :=
  (∀ (b : Byte) (s : State), s.fault = 0 → s.issuer = .worker → s.dstate = .syncMark →
    exec (.decByte b) s
      = .next { s with
          dstate := if b = 0xAA then DState.synced else if b = 0xCC then DState.syncMark else DState.desync
          responses := s.responses ++ [.none] }) ∧
  ∀ (n : Nat) (s : State) (rest : List Stimulus), s.fault = 0 → s.dstate = .desync →
    s.port = feed (List.replicate (n + 1) 0xCC ++ [0xAA]) ++ rest →
    ∃ t, runSteps (n + 2) s = .next t ∧ t.dstate = .synced ∧ t.port = rest ∧
      t.responses = s.responses ++ List.replicate (n + 2) .none

/-- 40_deframer.md R94: the length byte is taken whatever its value; length 0 goes to `VerifyChecksum` directly. -/
def Obligations.SyncedTakesAnyByteAsLength : Prop :=
  ∀ (b : Byte) (s : State), s.fault = 0 → s.issuer = .worker → s.dstate = .synced →
    exec (.decByte b) s
      = .next { s with
          dlen := b, dcnt := 0, dstate := if b = 0 then DState.verifyChecksum else DState.reading
          responses := s.responses ++ [.none] }

/-- 40_deframer.md R95: a payload byte is stored at `DBUF[DCNT]`, no other byte of `DBUF` changes, `DCNT` grows by one
and stays at most `DLEN`, and the last byte leads to `VerifyChecksum`; nothing else changes but the response. -/
def Obligations.ReadingStoresPayloadByte : Prop :=
  ∀ (b : Byte) (s : State), s.fault = 0 → s.issuer = .worker → s.dstate = .reading → s.dcnt.toNat < s.dlen.toNat →
    Memory.wf s.dbuf = true →
    ∃ t, exec (.decByte b) s = .next t ∧
      Memory.read t.dbuf s.dcnt.toNat = some b ∧
      (∀ a, a ≠ s.dcnt.toNat → Memory.read t.dbuf a = Memory.read s.dbuf a) ∧
      t.dcnt.toNat = s.dcnt.toNat + 1 ∧ t.dcnt.toNat ≤ t.dlen.toNat ∧
      t.dstate = (if s.dcnt.toNat + 1 = s.dlen.toNat then DState.verifyChecksum else DState.reading) ∧
      t = { s with dbuf := t.dbuf, dcnt := t.dcnt, dstate := t.dstate, responses := s.responses ++ [.none] }

/-- 40_deframer.md R96 and R98: on a match the `DLEN` bytes of `DBUF` are delivered, the empty sequence for `DLEN = 0`,
and the deframer is in `Desync` with an empty accumulator, whatever byte the checksum is. -/
def Obligations.ChecksumMatchDelivers : Prop :=
  ∀ (p : List Byte) (s : State), s.fault = 0 → s.issuer = .worker → s.dstate = .verifyChecksum →
    p.length = s.dlen.toNat → (∀ k (h : k < p.length), Memory.read s.dbuf k = some p[k]) →
    exec (.decByte (csum8 s.dlen p)) s
      = .next { s with dstate := .desync, dlen := 0, dcnt := 0, responses := s.responses ++ [.deliver p] }

/-- 40_deframer.md R97 and R98: on a mismatch nothing is delivered; the response is the diagnostic
`REJECT(DLEN, b, e)` and the deframer is in `Desync` with an empty accumulator. -/
def Obligations.ChecksumMismatchRejects : Prop :=
  ∀ (b : Byte) (p : List Byte) (s : State), s.fault = 0 → s.issuer = .worker → s.dstate = .verifyChecksum →
    p.length = s.dlen.toNat → (∀ k (h : k < p.length), Memory.read s.dbuf k = some p[k]) → b ≠ csum8 s.dlen p →
    exec (.decByte b) s
      = .next { s with
          dstate := .desync, dlen := 0, dcnt := 0
          responses := s.responses ++ [.reject s.dlen b (csum8 s.dlen p)] }

/-- 40_deframer.md R100: the result and the frame of `DEC.RESET`. -/
def Obligations.DecResetAbandonsPartialFrame : Prop :=
  ∀ s : State, s.fault = 0 → s.issuer = .worker →
    exec .decReset s
      = .next { s with dstate := .desync, dlen := 0, dcnt := 0, responses := s.responses ++ [.none] }

/-- 40_deframer.md R101, for one step from any state: a delivery has the declared length and the bytes of `DBUF`. -/
def Obligations.DeliveryHasDeclaredLength : Prop :=
  ∀ (s t : State) (p : List Byte), step s = .next t → t.responses = s.responses ++ [.deliver p] →
    s.dstate = .verifyChecksum ∧ p.length = s.dlen.toNat ∧
      ∀ k (h : k < p.length), Memory.read s.dbuf k = some p[k]

/-- 40_deframer.md R102: the streaming decoder, fed the result of `ENC.P [P]` one byte at a time from `Desync` or
`SyncMark`, answers `NONE` to every byte but the last and delivers `P` at the last, in `Desync`. -/
def Obligations.RoundTripDeliversThePayload : Prop :=
  ∀ (p f : List Byte) (s u v : State) (rest : List Stimulus), exec (.encP p) u = .next v →
    v.responses = u.responses ++ [.data f] → s.fault = 0 → (s.dstate = .desync ∨ s.dstate = .syncMark) →
    Memory.wf s.dbuf = true → s.port = feed f ++ rest →
    ∃ t, runSteps f.length s = .next t ∧
      t.responses = s.responses ++ (List.replicate (f.length - 1) .none ++ [.deliver p]) ∧
      t.dstate = .desync ∧ t.dlen = 0 ∧ t.dcnt = 0 ∧ t.q = s.q ∧ t.fault = 0 ∧ t.refusal = s.refusal ∧ t.port = rest

/-- 40_deframer.md R103: two valid frames in noise without an adjacent `CC AA` are delivered, in order, and nothing
else; and noise with that pair can swallow a frame. -/
def Obligations.FramesInNoiseAreDelivered : Prop :=
  (∀ (n0 f1 n1 f2 n2 : List Byte) (s : State), s.fault = 0 → s.dstate = .desync → Memory.wf s.dbuf = true →
    noSyncPair n0 = true → noSyncPair n1 = true → noSyncPair n2 = true →
    validFrame f1 = true → validFrame f2 = true → s.port = feed (n0 ++ f1 ++ n1 ++ f2 ++ n2) →
    ∃ t, runSteps (n0 ++ f1 ++ n1 ++ f2 ++ n2).length s = .next t ∧ t.port = [] ∧
      deliveries (t.responses.drop s.responses.length) = [payloadOf f1, payloadOf f2]) ∧
  ∃ (n f : List Byte) (s t : State), noSyncPair n = false ∧ validFrame f = true ∧ s.fault = 0 ∧ s.dstate = .desync ∧
    s.port = feed (n ++ f) ∧ runSteps (n ++ f).length s = .next t ∧
    deliveries (t.responses.drop s.responses.length) = []

/-- 40_deframer.md R99: once synchronised, whatever the bytes are, the deframer takes one length byte `L`, `L` payload
bytes and one checksum byte, `L + 2` in all and at most 257; only the last can be answered otherwise than `NONE`, and
the next byte is scanned in `Desync`. -/
def Obligations.SynchronisedFrameConsumesItsBytes : Prop :=
  ∀ (l c : Byte) (bytes : List Byte) (s : State) (rest : List Stimulus), s.fault = 0 → s.dstate = .synced →
    Memory.wf s.dbuf = true → bytes.length = l.toNat → s.port = feed (l :: (bytes ++ [c])) ++ rest →
    ∃ t, runSteps (l.toNat + 2) s = .next t ∧ t.dstate = .desync ∧ t.dlen = 0 ∧ t.dcnt = 0 ∧ t.port = rest ∧
      t.responses = s.responses ++ (List.replicate (l.toNat + 1) .none ++
        [if c = csum8 l bytes then Response.deliver bytes else .reject l c (csum8 l bytes)])

/-- 70_reset_and_hazards.md R205: from any sound state inside a frame, the deframer is back in `Desync` within 257
bytes of whatever comes. -/
def Obligations.DeframerRecoversWithin257Bytes : Prop :=
  ∀ (bytes : List Byte) (s : State) (rest : List Stimulus), StateInv s → s.fault = 0 →
    (s.dstate = .synced ∨ s.dstate = .reading ∨ s.dstate = .verifyChecksum) → bytes.length = 257 →
    s.port = feed bytes ++ rest →
    ∃ k t, 1 ≤ k ∧ k ≤ 257 ∧ runSteps k s = .next t ∧ t.dstate = .desync ∧ t.port = feed (bytes.drop k) ++ rest

/-! Framer (41_framer.md) and checksum (00_scope.md R12). -/

/-- 00_scope.md R12: the checksum function, and its equal, the two's-complement negation of the additive sum. -/
def Obligations.ChecksumIsNegatedSum : Prop :=
  ∀ (n : Byte) (p : List Byte),
    (csum8 n p).toNat = (256 - ((n.toNat + (p.map BitVec.toNat).sum) % 256)) % 256 ∧
    csum8 n p = -(n + p.foldl (fun a b => a + b) 0)

/-- 41_framer.md R121: the result of `ENC.P` for every payload and every agent, too long ones included, and its frame:
no state is written. -/
def Obligations.EncPFramesOrRejectsPayload : Prop :=
  ∀ (p : List Byte) (s : State), s.fault = 0 →
    exec (.encP p) s
      = .next { s with
          responses := s.responses ++
            [if p.length ≤ 255 then
              Response.data ([0xCC, 0xAA, BitVec.ofNat 8 p.length] ++ p ++ [csum8 (BitVec.ofNat 8 p.length) p])
            else .error .payloadTooLong] }

/-- 30_encoding.md R62: the four conditions of a valid frame; the last is equivalent to a zero sum modulo 256. -/
def Obligations.ValidFrameConditions : Prop :=
  ∀ f : List Byte,
    (validFrame f = true ↔
      4 ≤ f.length ∧ f[0]? = some 0xCC ∧ f[1]? = some 0xAA ∧
      ∃ n, f[2]? = some n ∧ f.length = n.toNat + 4 ∧
        f[3 + n.toNat]? = some (csum8 n ((f.drop 3).take n.toNat))) ∧
    ∀ n, f[2]? = some n → f.length = n.toNat + 4 →
      (f[3 + n.toNat]? = some (csum8 n ((f.drop 3).take n.toNat)) ↔ ((f.drop 2).map BitVec.toNat).sum % 256 = 0)

/-- 41_framer.md R121 with 30_encoding.md R62: every frame `ENC.P` answers is a valid frame of `len(p) + 4` bytes whose
payload field is `p`. -/
def Obligations.EncPResultIsValidFrame : Prop :=
  ∀ (p f : List Byte) (s t : State), s.fault = 0 → exec (.encP p) s = .next t →
    t.responses = s.responses ++ [.data f] → validFrame f = true ∧ f.length = p.length + 4 ∧ payloadOf f = p

/-- 41_framer.md R122: pass-through, unchanged and unvalidated. -/
def Obligations.EncFPassesThrough : Prop :=
  ∀ (f : List Byte) (s : State), s.fault = 0 →
    exec (.encF f) s = .next { s with responses := s.responses ++ [.data f] }

/-- 41_framer.md R123: which text decodes, to what, and the error of every other text. -/
def Obligations.HexTextDecodesOrIsInvalid : Prop :=
  (∀ (c v : Byte), hexVal c = some v ↔
    (0x30 ≤ c.toNat ∧ c.toNat ≤ 0x39 ∧ v.toNat = c.toNat - 0x30) ∨
    (0x61 ≤ c.toNat ∧ c.toNat ≤ 0x66 ∧ v.toNat = c.toNat - 0x61 + 10) ∨
    (0x41 ≤ c.toNat ∧ c.toNat ≤ 0x46 ∧ v.toNat = c.toNat - 0x41 + 10)) ∧
  (∀ (t p : List Byte), hexDecode t = .ok p ↔
    t.length = 2 * p.length ∧
    ∀ k, k < p.length → ∃ h l hc lc b, t[2 * k]? = some hc ∧ t[2 * k + 1]? = some lc ∧ p[k]? = some b ∧
      hexVal hc = some h ∧ hexVal lc = some l ∧ b.toNat = 16 * h.toNat + l.toNat) ∧
  ∀ t : List Byte, hexDecode t = .error .invalidEncoding ↔ t.length % 2 = 1 ∨ ∃ c ∈ t, hexVal c = none

/-- 41_framer.md R124 and 60_exceptions.md R180: hex text is decoded first, then its payload's length is checked. -/
def Obligations.EncHpDecodesThenFrames : Prop :=
  ∀ (x : List Byte) (s : State), s.fault = 0 →
    exec (.encHp x) s
      = .next { s with
          responses := s.responses ++
            [match hexDecode x with
              | .error k => Response.error k
              | .ok p =>
                if p.length ≤ 255 then
                  .data ([0xCC, 0xAA, BitVec.ofNat 8 p.length] ++ p ++ [csum8 (BitVec.ofNat 8 p.length) p])
                else .error .payloadTooLong] }

/-- 41_framer.md R125: hex text of any length, decoded and passed through. -/
def Obligations.EncHfDecodesAndPassesThrough : Prop :=
  ∀ (x : List Byte) (s : State), s.fault = 0 →
    exec (.encHf x) s
      = .next { s with
          responses := s.responses ++
            [match hexDecode x with
              | .error k => Response.error k
              | .ok f => .data f] }

/-- 41_framer.md R126: the framer reads and writes no state: in any two states, of any two agents, a framer command has
the same response and changes nothing. -/
def Obligations.FramerReadsAndWritesNoState : Prop :=
  ∀ i : Instr, isFramerCommand i = true →
    ∃ r, ∀ s : State, s.fault = 0 → exec i s = .next { s with responses := s.responses ++ [r] }

/-- 41_framer.md R127: the checksum law, and the linear delta of a one-byte change. -/
def Obligations.ChecksumLawOfFrames : Prop :=
  ∀ p : List Byte, p.length ≤ 255 →
    (∃ n c, (frameOf p)[2]? = some n ∧ (frameOf p).getLast? = some c ∧
      (n.toNat + (p.map BitVec.toNat).sum + c.toNat) % 256 = 0) ∧
    ∀ (k : Nat) (h : k < p.length) (d : Byte),
      ∃ c, (frameOf p).getLast? = some c ∧ (frameOf (p.set k (p[k] + d))).getLast? = some (c - d) ∧
        (frameOf (p.set k (p[k] + d))).take 3 = (frameOf p).take 3

/-- 40_deframer.md R105: a corruption by `+d` on one payload byte and `-d` on another keeps the checksum, so the
deframer delivers the corrupted payload. -/
def Obligations.CompensatingCorruptionIsDelivered : Prop :=
  ∀ (p : List Byte) (j k : Nat) (hj : j < p.length) (hk : k < p.length) (d : Byte) (s : State), j ≠ k →
    s.fault = 0 → s.issuer = .worker → s.dstate = .verifyChecksum → p.length = s.dlen.toNat →
    (∀ m (h : m < p.length), Memory.read s.dbuf m = some ((p.set j (p[j] + d)).set k (p[k] - d))[m]!) →
    exec (.decByte (csum8 s.dlen p)) s
      = .next { s with
          dstate := .desync, dlen := 0, dcnt := 0
          responses := s.responses ++ [.deliver ((p.set j (p[j] + d)).set k (p[k] - d))] }

/-! FIFO (42_fifo.md). -/

/-- 42_fifo.md R140 with unbounded limits: any bytes, any timestamp, any agent: the entry is appended and nothing else
changes. -/
def Obligations.EnqueueAppendsEntry : Prop :=
  ∀ (bytes : List Byte) (now : Config.TS) (s : State), s.fault = 0 →
    exec (.qEnq bytes now) s
      = .next { s with q := s.q ++ [{ ts := now, bytes := bytes }], responses := s.responses ++ [.none] }

/-- 42_fifo.md R142: the oldest entry is removed and returned; an empty FIFO answers `EMPTY` and changes nothing. -/
def Obligations.DequeueReturnsOldestOrEmpty : Prop :=
  ∀ s : State, s.fault = 0 → s.issuer = .worker →
    (s.q = [] → exec .qDeq s = .next { s with responses := s.responses ++ [.empty] }) ∧
    ∀ (e : Entry) (rest : List Entry), s.q = e :: rest →
      exec .qDeq s = .next { s with q := rest, responses := s.responses ++ [.entry e.ts e.bytes] }

/-- 42_fifo.md R144: every entry is discarded and nothing else changes. -/
def Obligations.ClearDiscardsEveryEntry : Prop :=
  ∀ s : State, s.fault = 0 → s.issuer = .worker →
    exec .qClr s = .next { s with q := [], responses := s.responses ++ [.none] }

/-- 42_fifo.md R145: over any commands of any agents that hold no clear or reset, the entries dequeued and then those
left are the entries that were there and then those enqueued: nothing repeated, reordered, lost or invented. -/
def Obligations.FifoConservesEntriesInOrder : Prop :=
  ∀ (ins rest : List Stimulus) (s t : State), s.fault = 0 → s.port = ins ++ rest →
    (∀ x ∈ ins, discardsFifo x = false) → runSteps ins.length s = .next t →
    dequeued (t.responses.drop s.responses.length) ++ t.q = s.q ++ ins.filterMap enqueuedEntry

/-- 20_memory.md R50: in every linearization of what the agents issued, each agent's own entries leave the FIFO, or
stand in it, in the order that agent enqueued them. -/
def Obligations.EachAgentsEntriesKeepTheirOrder : Prop :=
  ∀ (issued : Agent → List Command) (s t : State), s.fault = 0 → s.q = [] → IsLinearization issued s.port →
    (∀ x ∈ s.port, discardsFifo x = false) → runSteps s.port.length s = .next t →
    ∀ a, ((issued a).filterMap (fun c => enqueuedEntry (.command c))).Sublist
      (dequeued (t.responses.drop s.responses.length) ++ t.q)

/-- 20_memory.md R51: an enqueue before a clear loses its entry, one after it survives. -/
def Obligations.ClearAgainstEnqueue : Prop :=
  ∀ (a : Agent) (bytes : List Byte) (now : Config.TS) (s : State) (rest : List Stimulus), s.fault = 0 →
    (s.port = .command (encode a (.qEnq bytes now)) :: .command (encode .worker .qClr) :: rest →
      ∃ t, runSteps 2 s = .next t ∧ t.q = []) ∧
    (s.port = .command (encode .worker .qClr) :: .command (encode a (.qEnq bytes now)) :: rest →
      ∃ t, runSteps 2 s = .next t ∧ t.q = [{ ts := now, bytes := bytes }])

/-- 42_fifo.md R147: no rule reads, compares or orders by a timestamp: replacing every timestamp by any function of it
commutes with every step. -/
def Obligations.TimestampsAreOnlyCarried : Prop :=
  ∀ (f : Config.TS → Config.TS) (s t : State), step s = .next t → step (s.mapTime f) = .next (t.mapTime f)

/-- 42_fifo.md R148 and 60_exceptions.md R175: in a realization with a finite `QCAP`, `Q.ENQ` into a full FIFO sets
`FAULT` to 1, stores nothing and answers `FAULTED(1)`, whatever its size. -/
def Obligations.FullFiniteFifoOverflows : Prop :=
  ∀ (cap : Nat) (most : Option Nat) (bytes : List Byte) (now : Config.TS) (s : State), s.fault = 0 →
    s.q.length = cap →
    execIn { qcap := some cap, qmaxb := most } (.qEnq bytes now) s
      = .next { s with fault := 1, responses := s.responses ++ [.faulted 1] }

/-- 42_fifo.md R149 and 60_exceptions.md R180: in a realization with a finite `QMAXB` whose FIFO has room, a longer
entry sets `FAULT` to 2 and is not stored; one of exactly `QMAXB` bytes is stored. -/
def Obligations.OverlongEntryFaults : Prop :=
  ∀ (cap : Option Nat) (most : Nat) (bytes : List Byte) (now : Config.TS) (s : State), s.fault = 0 →
    (∀ n, cap = some n → s.q.length < n) →
    execIn { qcap := cap, qmaxb := some most } (.qEnq bytes now) s
      = .next (if most < bytes.length then { s with fault := 2, responses := s.responses ++ [.faulted 2] }
        else { s with q := s.q ++ [{ ts := now, bytes := bytes }], responses := s.responses ++ [.none] })

/-- 10_state.md R26 and R31: in a realization with any limits every step, an enqueue's among them, keeps
`len(Q) <= QCAP`. -/
def Obligations.EveryStepKeepsCapacity : Prop :=
  ∀ (lim : Config.Limits) (s t : State), withinCapacity lim s.q = true → stepIn lim s = .next t →
    withinCapacity lim t.q = true

/-! Control (43_control.md), priority, agents and faults (60_exceptions.md). -/

/-- 43_control.md R160: both units at once, `FAULT` and all else unchanged; it equals `DEC.RESET` then `Q.CLR` but for
the one response. -/
def Obligations.BlkResetResetsBothUnits : Prop :=
  ∀ s : State, s.fault = 0 → s.issuer = .worker →
    exec .blkReset s
      = .next { s with dstate := .desync, dlen := 0, dcnt := 0, q := [], responses := s.responses ++ [.none] } ∧
    ∃ t, execAll [.decReset, .qClr] s = .next t ∧
      exec .blkReset s = .next { t with responses := s.responses ++ [.none] }

/-- 43_control.md R161: a word of no row, of any agent, answers `IllegalOp` and changes no state. -/
def Obligations.IllegalWordAnswersIllegalOp : Prop :=
  ∀ (c : Command) (rest : List Stimulus) (s : State), s.fault = 0 → s.port = .command c :: rest →
    legalWord c.cmd = false →
    step s = .next { s with
      port := rest, issuer := c.agent, responses := s.responses ++ [.error .illegalOp] }

/-- 60_exceptions.md R176: while `FAULT` is set every command, legal or illegal, of any agent, answers
`FAULTED(FAULT)` and changes no state, on this hardware and in a realization with any limits, and such a state is not
final. -/
def Obligations.FaultedBlockIsStuck : Prop :=
  ∀ (lim : Config.Limits) (c : Command) (rest : List Stimulus) (s : State), s.fault ≠ 0 →
    s.port = .command c :: rest →
    step s = .next { s with port := rest, issuer := c.agent, responses := s.responses ++ [.faulted s.fault] } ∧
    stepIn lim s = step s ∧
    ∀ t, step s = .next t → ¬ Complete t

/-- 10_state.md R29: who may issue what. -/
def Obligations.AgentRights : Prop :=
  (∀ i, mayIssue .worker i = true) ∧
  ∀ (n : Nat) (i : Instr), mayIssue (.producer n) i = true ↔
    (∃ bytes now, i = .qEnq bytes now) ∨ (∃ x, i = .encP x) ∨ (∃ x, i = .encF x) ∨ (∃ x, i = .encHp x) ∨
      ∃ x, i = .encHf x

/-- 60_exceptions.md R177: a command of an agent that may not issue it sets the refusal mark and performs nothing, and
every step keeps a mark that is set, so that no such run is complete. -/
def Obligations.RefusedCommandPerformsNothing : Prop :=
  (∀ (i : Instr) (s : State), s.fault = 0 → mayIssue s.issuer i = false →
    exec i s = .next { s with refusal := true }) ∧
  ∀ s t : State, s.refusal = true → step s = .next t → t.refusal = true ∧ ¬ Complete t

/-- 60_exceptions.md R178 items 1 to 3 and 7: the outcome taken first, for every presented command. -/
def Obligations.PriorityOfOutcomes : Prop :=
  ∀ (c : Command) (rest : List Stimulus) (s : State), s.port = .command c :: rest →
    step s =
      if s.fault ≠ 0 then
        .next { s with port := rest, issuer := c.agent, responses := s.responses ++ [.faulted s.fault] }
      else
        match decode c.cmd c.opnd c.now with
        | .error _ =>
          .next { s with port := rest, issuer := c.agent, responses := s.responses ++ [.error .illegalOp] }
        | .ok i =>
          if mayIssue c.agent i = true then exec i { s with port := rest, issuer := c.agent }
          else .next { s with port := rest, issuer := c.agent, refusal := true }

/-- 10_state.md R28: each command yields exactly one response, but for a refused one, which yields none
(60_exceptions.md R177; log entry 5). -/
def Obligations.OneResponsePerCommand : Prop :=
  ∀ (i : Instr) (s t : State), exec i s = .next t →
    if s.fault = 0 ∧ mayIssue s.issuer i = false then t.responses = s.responses
    else ∃ r, t.responses = s.responses ++ [r]

/-- 60_exceptions.md R175: with this hardware's limits no step sets `FAULT`. -/
def Obligations.NoStepSetsFault : Prop :=
  ∀ s t : State, s.fault = 0 → step s = .next t → t.fault = 0

/-- 10_state.md R27: no command, and no step but a power-on reset, changes a `FAULT` that is set, on this hardware and
in a realization with any limits. -/
def Obligations.OnlyPowerOnClearsFault : Prop :=
  ∀ (lim : Config.Limits) (s t : State), s.fault ≠ 0 → (step s = .next t ∨ stepIn lim s = .next t) →
    t.fault = s.fault ∨ ∃ rest, s.port = .powerOn :: rest

/-! Frames (00_scope.md R2; 20_memory.md R44, R47). -/

/-- 00_scope.md R2: no FIFO or framer command changes the deframer, no deframer or framer command changes the FIFO. -/
def Obligations.UnitsShareNoState : Prop :=
  ∀ (i : Instr) (s t : State), exec i s = .next t →
    ((isDeframerCommand i = true ∨ isFramerCommand i = true) → t.q = s.q) ∧
    ((isFifoCommand i = true ∨ isFramerCommand i = true) →
      t.dstate = s.dstate ∧ t.dlen = s.dlen ∧ t.dcnt = s.dcnt ∧ t.dbuf = s.dbuf)

/-- The frame of every command (20_memory.md R44, R47): the port, the issuer and `FAULT` are kept, the responses given
before stay, only a refusal sets the mark, `DSTATE`, `DLEN` and `DCNT` change only under `DEC.BYTE`, `DEC.RESET` and
`BLK.RESET`, `Q` only under `Q.ENQ`, `Q.DEQ`, `Q.CLR` and `BLK.RESET`, and no byte of `DBUF` changes but the one at
`DCNT` under `DEC.BYTE` in `Reading`. -/
def Obligations.CommandFrame : Prop :=
  ∀ (i : Instr) (s t : State), Memory.wf s.dbuf = true → exec i s = .next t →
    t.port = s.port ∧ t.issuer = s.issuer ∧ t.fault = s.fault ∧ s.responses.IsPrefix t.responses ∧
    (mayIssue s.issuer i = true → t.refusal = s.refusal) ∧
    ((∀ b, i ≠ .decByte b) → i ≠ .decReset → i ≠ .blkReset →
      t.dstate = s.dstate ∧ t.dlen = s.dlen ∧ t.dcnt = s.dcnt) ∧
    ((∀ bytes now, i ≠ .qEnq bytes now) → i ≠ .qDeq → i ≠ .qClr → i ≠ .blkReset → t.q = s.q) ∧
    ∀ a, (a ≠ s.dcnt.toNat ∨ s.dstate ≠ .reading ∨ ∀ b, i ≠ .decByte b) →
      Memory.read t.dbuf a = Memory.read s.dbuf a

/-! The step and the invariant (10_state.md R31). -/

/-- A step runs the decoded command: it is taken from the port, its agent noted, and `exec` performs it
(20_memory.md R48). A step of a realization with any limits does the same with `execIn`, and this hardware is the
realization with both limits unbounded (00_scope.md R8). -/
def Obligations.StepRunsTheDecodedCommand : Prop :=
  ∀ (lim : Config.Limits) (c : Command) (rest : List Stimulus) (i : Instr) (s : State), s.port = .command c :: rest →
    decode c.cmd c.opnd c.now = .ok i →
    step s = exec i { s with port := rest, issuer := c.agent } ∧
    stepIn lim s = execIn lim i { s with port := rest, issuer := c.agent } ∧
    stepIn { qcap := none, qmaxb := none } s = step s

/-- 60_exceptions.md R188: between commands every state element keeps its value (that such a step is taken at all is
the model's: log entry 4). -/
def Obligations.StateIsKeptBetweenCommands : Prop :=
  ∀ (n : Nat) (s : State), s.port = [] → runSteps n s = .next s

/-- The invariant holds at reset (10_state.md R31). -/
def Obligations.ResetMeetsInvariant : Prop := StateInv State.reset

/-- Every step keeps the invariant, from every state that meets it (10_state.md R31). -/
def Obligations.StepKeepsInvariant : Prop := ∀ s t : State, StateInv s → step s = .next t → StateInv t

/-- From a state that meets the invariant every step answers a next state: no command stops the machine. The rules of
the commands are the spec's (40_deframer.md R91 among them). The model's choices are: that a step with nothing presented
answers the same state (log entry 4), that a refused agent's command answers a next state with the mark set (log entry
5), and the one stop, which the invariant rules out (log entry 7). -/
def Obligations.StepAlwaysAnswers : Prop := ∀ s : State, StateInv s → ∃ t, step s = .next t

/-- The model's only stop (log entry 7): a byte fed in `Reading` with `DCNT = 255`, for which `DBUF` has no byte. -/
def Obligations.OnlyByteBeyondBufferStops : Prop :=
  ∀ (i : Instr) (s : State), (∀ t, exec i s ≠ .next t) ↔
    (∃ b, i = .decByte b) ∧ s.fault = 0 ∧ s.issuer = .worker ∧ s.dstate = .reading ∧ s.dcnt = 255

/-- 10_state.md R31: every state reachable from reset, under any stimuli of any agents in any order, satisfies the
invariant; with R27 and 60_exceptions.md R175, its `FAULT` is 0. That every number of steps answers a next state rests on
the model's choices: the idle step (log entry 4) and the step of a refused agent's command (log entry 5). -/
def Obligations.ReachableStatesMeetInvariant : Prop :=
  ∀ (ins : List Stimulus) (k : Nat),
    ∃ t, runSteps k { State.reset with port := ins } = .next t ∧ StateInv t ∧ t.fault = 0

/-- 10_state.md R25: the bytes of `DBUF` at indices `>= DCNT` are never read: two sound states that differ only there
stay so under every step, with the same responses. -/
def Obligations.StaleBytesAreNeverRead : Prop :=
  ∀ s t s' : State, StateInv s → Memory.wf t.dbuf = true → SameButStale s t → step s = .next s' →
    ∃ t', step t = .next t' ∧ SameButStale s' t'

/-! Encodings (30_encoding.md R66 to R69). -/

/-- Decoding the encoding of an instruction gives it back, with every operand at every value. -/
def Obligations.DecodeOfEncode : Prop :=
  ∀ (a : Agent) (i : Instr), decode (encode a i).cmd (encode a i).opnd (encode a i).now = .ok i

/-- Encoding a decoded command gives its word back, and the operand and timestamp it reads. -/
def Obligations.EncodeOfDecode : Prop :=
  ∀ (w : Word) (opnd : List Byte) (now : Config.TS) (i : Instr), decode w opnd now = .ok i →
    encodeWord i = w ∧ (encodeOpnd i = opnd ∨ encodeOpnd i = []) ∧
    (isFramerCommand i = true → encodeOpnd i = opnd) ∧
    ((∃ bytes t, i = .qEnq bytes t) → encodeOpnd i = opnd ∧ encodeNow i = now)

/-- 30_encoding.md R67: the opcode map row by row, every other word refused, and no word matching two rows. -/
def Obligations.DecodeFollowsOpcodeMap : Prop :=
  ∀ (w : Word) (opnd : List Byte) (now : Config.TS),
    (w &&& 0xFF00 = 0x1000 → decode w opnd now = .ok (.decByte (w.setWidth 8))) ∧
    (w = 0x2000 → decode w opnd now = .ok .decReset) ∧
    (w = 0x3000 → decode w opnd now = .ok (.encP opnd)) ∧
    (w = 0x3100 → decode w opnd now = .ok (.encF opnd)) ∧
    (w = 0x3200 → decode w opnd now = .ok (.encHp opnd)) ∧
    (w = 0x3300 → decode w opnd now = .ok (.encHf opnd)) ∧
    (w = 0x4000 → decode w opnd now = .ok (.qEnq opnd now)) ∧
    (w = 0x5000 → decode w opnd now = .ok .qDeq) ∧
    (w = 0x6000 → decode w opnd now = .ok .qClr) ∧
    (w = 0x7000 → decode w opnd now = .ok .blkReset) ∧
    (legalWord w = false → ∃ e, decode w opnd now = .error e) ∧
    (opcodeRows.filter (fun r => r.covers w)).length ≤ 1

/-- 30_encoding.md R69: the illegal words, enumerated by their fields. -/
def Obligations.IllegalWordsAreTheReservedOnes : Prop :=
  ∀ w : Word, legalWord w = false ↔
    (w.extractLsb' 12 4 = 0 ∨ 8 ≤ (w.extractLsb' 12 4).toNat) ∨
    (w.extractLsb' 12 4 = 1 ∧ w.extractLsb' 8 4 ≠ 0) ∨
    ((w.extractLsb' 12 4 = 2 ∨ (4 ≤ (w.extractLsb' 12 4).toNat ∧ (w.extractLsb' 12 4).toNat ≤ 7)) ∧
      w.extractLsb' 0 12 ≠ 0) ∨
    (w.extractLsb' 12 4 = 3 ∧ (w.extractLsb' 10 2 ≠ 0 ∨ w.extractLsb' 0 8 ≠ 0))

/-- A few words of 95_test_vectors.md, decoded. -/
def Obligations.DecodeOfSampleWords : Prop :=
  ∀ t : Config.TS,
    decode 0x10CC [] t = .ok (.decByte 0xCC) ∧ decode 0x2000 [] t = .ok .decReset ∧
    decode 0x3200 [0x30, 0x35] t = .ok (.encHp [0x30, 0x35]) ∧ decode 0x4000 [0x33] t = .ok (.qEnq [0x33] t) ∧
    decode 0x7000 [] t = .ok .blkReset ∧ decode 0x11CC [] t = .error .reservedBitSet ∧
    decode 0x8000 [] t = .error .unassignedGroup

/-! Pseudo-instructions (30_encoding.md R73). -/

/-- 30_encoding.md R73, for one schedule of `SEND.P`: issued with no other command between its own, which is the model's
choice of schedule (`performAlone`: log entry 16), it enqueues the frame of its payload, or stops with the error and
enqueues nothing. It says nothing of a `SEND.P` that other agents' commands fall between. -/
def Obligations.SendPEnqueuesTheFrame : Prop :=
  ∀ (p : List Byte) (now : Config.TS) (s : State), s.fault = 0 →
    (Pseudo.sendP p now).performAlone s
      = .next (if p.length ≤ 255 then
          { s with
            q := s.q ++ [{ ts := now, bytes := frameOf p }]
            responses := s.responses ++ [.data (frameOf p), .none] }
        else { s with responses := s.responses ++ [.error .payloadTooLong] })
end

