-- ==== Sys2Proof/Laws/Decode.lean ====
section
/-! SUPPORT. The fields of a laid-out command word (30_encoding.md R66). -/

namespace Sys2Proof

@[simp] theorem opField_layout (op : BitVec 4) (h f : Bool) (b : Byte) : opField (layout op h f b) = op := by
  ext i hi
  interval_cases i <;> simp [opField, layout]

@[simp] theorem z1Field_layout (op : BitVec 4) (h f : Bool) (b : Byte) : z1Field (layout op h f b) = 0 := by
  ext i hi
  interval_cases i <;> simp [z1Field, layout]

@[simp] theorem hField_layout (op : BitVec 4) (h f : Bool) (b : Byte) : hField (layout op h f b) = h := by
  simp [hField, layout]

@[simp] theorem fField_layout (op : BitVec 4) (h f : Bool) (b : Byte) : fField (layout op h f b) = f := by
  simp [fField, layout]

@[simp] theorem bField_layout (op : BitVec 4) (h f : Bool) (b : Byte) : bField (layout op h f b) = b := by
  ext i hi
  interval_cases i <;> simp [bField, layout]

/-- A word is laid out from its fields when its reserved field is 0. -/
theorem layout_of_fields (w : Word) (hz : z1Field w = 0) :
    layout (opField w) (hField w) (fField w) (bField w) = w := by
  have h10 : w.getLsbD 10 = false := by
    have := congrArg (fun v => v.getLsbD 0) hz
    simpa [z1Field] using this
  have h11 : w.getLsbD 11 = false := by
    have := congrArg (fun v => v.getLsbD 1) hz
    simpa [z1Field] using this
  ext i hi
  interval_cases i <;> simp_all [layout, opField, hField, fField, bField]

@[simp] theorem noForm_layout (op : BitVec 4) (h f : Bool) (b : Byte) :
    noForm (layout op h f b) = (!h && !f) := by
  simp [noForm]

end Sys2Proof
end

