-- ==== Sys2Proof/Laws/Memory.lean ====
section
/-! SUPPORT. The payload buffer: reading after writing, and the canonical form (20_memory.md R44). -/

namespace Sys2Proof.Machine

@[simp] theorem Memory.byteAt_nil (a : Nat) : Memory.byteAt [] a = Config.dbufBlank := rfl

theorem Memory.wfFrom_mono {lo lo' : Nat} {m : List Host.Cell} (h : lo' ≤ lo) (hm : Memory.wfFrom lo m = true) :
    Memory.wfFrom lo' m = true := by
  cases m with
  | nil => rfl
  | cons c rest =>
    simp only [Memory.wfFrom, Bool.and_eq_true, decide_eq_true_eq] at hm ⊢
    exact ⟨⟨⟨by omega, hm.1.1.2⟩, hm.1.2⟩, hm.2⟩

/-- Below its first index a canonical list is blank. -/
theorem Memory.byteAt_below {lo a : Nat} {m : List Host.Cell} (hm : Memory.wfFrom lo m = true) (h : a < lo) :
    Memory.byteAt m a = Config.dbufBlank := by
  induction m generalizing lo with
  | nil => rfl
  | cons c rest ih =>
    simp only [Memory.wfFrom, Bool.and_eq_true, decide_eq_true_eq] at hm
    simp only [Memory.byteAt]
    rw [if_neg (by omega)]
    exact ih hm.2 (by omega)

/-- The byte written is the byte read, and no other byte changes. -/
theorem Memory.byteAt_put {lo : Nat} {m : List Host.Cell} (hm : Memory.wfFrom lo m = true) (a : Nat) (b : Byte) (k : Nat) :
    Memory.byteAt (Memory.put m a b) k = if k = a then b else Memory.byteAt m k := by
  induction m generalizing lo with
  | nil =>
    by_cases hb : b = Config.dbufBlank
    · simp [Memory.put, hb]
    · simp [Memory.put, hb, Memory.byteAt]
  | cons c rest ih =>
    obtain ⟨a', b'⟩ := c
    simp only [Memory.wfFrom, Bool.and_eq_true, decide_eq_true_eq] at hm
    simp only [Memory.put]
    by_cases h1 : a < a'
    · rw [if_pos h1]
      by_cases hb : b = Config.dbufBlank
      · rw [if_pos hb]
        by_cases hk : k = a
        · have hr := Memory.byteAt_below hm.2 (show k < a' + 1 by omega)
          simp [Memory.byteAt, hk, hb, show ¬ a = a' by omega]
          rw [← hk]; exact hr
        · simp [hk]
      · rw [if_neg hb]; simp [Memory.byteAt]
    · rw [if_neg h1]
      by_cases h2 : a = a'
      · subst h2
        rw [if_pos rfl]
        by_cases hb : b = Config.dbufBlank
        · rw [if_pos hb]
          by_cases hk : k = a
          · subst hk; simp [hb, Memory.byteAt_below hm.2 (Nat.lt_succ_self k)]
          · simp [Memory.byteAt, hk]
        · rw [if_neg hb]; simp only [Memory.byteAt]; split <;> simp_all
      · rw [if_neg h2]
        simp only [Memory.byteAt, ih hm.2]
        by_cases hk : k = a'
        · simp [hk, show ¬ a' = a by omega]
        · simp [hk]

theorem Memory.wfFrom_put {lo : Nat} {m : List Host.Cell} (hm : Memory.wfFrom lo m = true) {a : Nat} (b : Byte)
    (hlo : lo ≤ a) (ha : a < Config.maxLen) : Memory.wfFrom lo (Memory.put m a b) = true := by
  induction m generalizing lo with
  | nil =>
    by_cases hb : b = Config.dbufBlank
    · simp [Memory.put, hb, Memory.wfFrom]
    · simp [Memory.put, hb, Memory.wfFrom, hlo, ha]
  | cons c rest ih =>
    obtain ⟨a', b'⟩ := c
    have hm0 := hm
    simp only [Memory.wfFrom, Bool.and_eq_true, decide_eq_true_eq] at hm
    obtain ⟨⟨⟨h0, h1⟩, h2⟩, h3⟩ := hm
    simp only [Memory.put]
    split
    · rename_i hlt
      split
      · exact hm0
      · rename_i hb
        have h4 : a + 1 ≤ a' := hlt
        have hb' : (b != Config.dbufBlank) = true := by simpa using hb
        simp [Memory.wfFrom, hlo, ha, h4, h1, h2, h3, hb']
    · split
      · rename_i heq
        subst heq
        split
        · exact Memory.wfFrom_mono (by omega) h3
        · rename_i hb
          simp [Memory.wfFrom, hlo, ha, h3, hb]
      · have := ih (lo := a' + 1) h3 (by omega)
        simp [Memory.wfFrom, h0, h1, h2, this]

/-- Every write keeps the canonical form (20_memory.md R44). -/
theorem Memory.wf_write {m m' : List Host.Cell} {a : Nat} {b : Byte} (hm : Memory.wf m = true)
    (h : Memory.write m a b = some m') : Memory.wf m' = true := by
  simp only [Memory.write] at h
  split at h
  · rename_i ha
    cases h
    exact Memory.wfFrom_put hm b (Nat.zero_le a) ha
  · cases h

/-- What a write does, said once: the index exists, the byte is there, the others are as before. -/
theorem Memory.write_spec {m m' : List Host.Cell} {a : Nat} {b : Byte} (hm : Memory.wf m = true)
    (h : Memory.write m a b = some m') :
    a < 255 ∧ Memory.byteAt m' a = b ∧ ∀ k, k ≠ a → Memory.byteAt m' k = Memory.byteAt m k := by
  simp only [Memory.write] at h
  split at h
  · rename_i ha
    cases h
    refine ⟨ha, ?_, fun k hk => ?_⟩
    · rw [Memory.byteAt_put hm, if_pos rfl]
    · rw [Memory.byteAt_put hm, if_neg hk]
  · cases h

theorem Memory.write_some {m : List Host.Cell} {a : Nat} (b : Byte) (ha : a < 255) :
    Memory.write m a b = some (Memory.put m a b) := by
  rw [Memory.write, if_pos (show a < Config.maxLen from ha)]

theorem Memory.write_none {m : List Host.Cell} {a : Nat} (b : Byte) (ha : 255 ≤ a) : Memory.write m a b = none := by
  rw [Memory.write, if_neg (show ¬ a < Config.maxLen from Nat.not_lt.mpr ha)]

/-- `MemRead` at an index `DBUF` has. -/
theorem Memory.read_of_lt (m : List Host.Cell) {a : Nat} (ha : a < 255) : Memory.read m a = some (Memory.byteAt m a) := by
  rw [Memory.read, if_pos (show a < Config.maxLen from ha)]

/-- `MemRead` beyond `DBUF`. -/
theorem Memory.read_of_ge (m : List Host.Cell) {a : Nat} (ha : 255 ≤ a) : Memory.read m a = none := by
  rw [Memory.read, if_neg (show ¬ a < Config.maxLen from Nat.not_lt.mpr ha)]

/-- `MemRead` after `MemWrite`. -/
theorem Memory.read_write {m m' : List Host.Cell} {a : Nat} {b : Byte} (hm : Memory.wf m = true)
    (h : Memory.write m a b = some m') (k : Nat) :
    Memory.read m' k = if k = a then some b else Memory.read m k := by
  obtain ⟨ha, hw, ho⟩ := Memory.write_spec hm h
  simp only [Memory.read]
  by_cases hk : k = a
  · rw [if_pos hk, hk, hw, if_pos (show a < Config.maxLen from ha)]
  · rw [if_neg hk, ho k hk]

@[simp] theorem Memory.prefixBytes_length (m : List Host.Cell) (n : Nat) : (Memory.prefixBytes m n).length = n := by
  simp [Memory.prefixBytes]

@[simp] theorem Memory.prefixBytes_zero (m : List Host.Cell) : Memory.prefixBytes m 0 = [] := rfl

theorem Memory.prefixBytes_getElem (m : List Host.Cell) (n k : Nat) (h : k < (Memory.prefixBytes m n).length) :
    (Memory.prefixBytes m n)[k] = Memory.byteAt m k := by
  simp [Memory.prefixBytes]

/-- One byte more. -/
theorem Memory.prefixBytes_succ (m : List Host.Cell) (n : Nat) :
    Memory.prefixBytes m (n + 1) = Memory.prefixBytes m n ++ [Memory.byteAt m n] := by
  simp [Memory.prefixBytes, List.range_succ]

/-- Buffers that agree below `n` have the same first `n` bytes. -/
theorem Memory.prefixBytes_congr {m m' : List Host.Cell} {n : Nat}
    (h : ∀ k, k < n → Memory.byteAt m k = Memory.byteAt m' k) : Memory.prefixBytes m n = Memory.prefixBytes m' n := by
  simp only [Memory.prefixBytes]
  exact List.map_congr_left (fun k hk => h k (List.mem_range.mp hk))

theorem Memory.reset_wf : Memory.wf State.reset.dbuf = true := rfl

end Sys2Proof.Machine
end

