-- ==== Sys2Proof/Laws/State.lean ====
section
/-! SUPPORT. For each update of the state, what each field is afterwards. -/

namespace Sys2Proof.Machine

/-! `respond` touches the responses only (00_scope.md R11). -/

@[simp] theorem State.respond_dstate (s : State) (r : Response) : (s.respond r).dstate = s.dstate := rfl
@[simp] theorem State.respond_dlen (s : State) (r : Response) : (s.respond r).dlen = s.dlen := rfl
@[simp] theorem State.respond_dcnt (s : State) (r : Response) : (s.respond r).dcnt = s.dcnt := rfl
@[simp] theorem State.respond_dbuf (s : State) (r : Response) : (s.respond r).dbuf = s.dbuf := rfl
@[simp] theorem State.respond_q (s : State) (r : Response) : (s.respond r).q = s.q := rfl
@[simp] theorem State.respond_fault (s : State) (r : Response) : (s.respond r).fault = s.fault := rfl
@[simp] theorem State.respond_refusal (s : State) (r : Response) : (s.respond r).refusal = s.refusal := rfl
@[simp] theorem State.respond_port (s : State) (r : Response) : (s.respond r).port = s.port := rfl
@[simp] theorem State.respond_issuer (s : State) (r : Response) : (s.respond r).issuer = s.issuer := rfl
@[simp] theorem State.respond_responses (s : State) (r : Response) : (s.respond r).responses = s.responses ++ [r] := rfl

/-! `raise Error` touches the responses only (60_exceptions.md R172). -/

@[simp] theorem State.raiseError_dstate (s : State) (k : ErrorKind) : (s.raiseError k).dstate = s.dstate := rfl
@[simp] theorem State.raiseError_dlen (s : State) (k : ErrorKind) : (s.raiseError k).dlen = s.dlen := rfl
@[simp] theorem State.raiseError_dcnt (s : State) (k : ErrorKind) : (s.raiseError k).dcnt = s.dcnt := rfl
@[simp] theorem State.raiseError_dbuf (s : State) (k : ErrorKind) : (s.raiseError k).dbuf = s.dbuf := rfl
@[simp] theorem State.raiseError_q (s : State) (k : ErrorKind) : (s.raiseError k).q = s.q := rfl
@[simp] theorem State.raiseError_fault (s : State) (k : ErrorKind) : (s.raiseError k).fault = s.fault := rfl
@[simp] theorem State.raiseError_refusal (s : State) (k : ErrorKind) : (s.raiseError k).refusal = s.refusal := rfl
@[simp] theorem State.raiseError_port (s : State) (k : ErrorKind) : (s.raiseError k).port = s.port := rfl
@[simp] theorem State.raiseError_issuer (s : State) (k : ErrorKind) : (s.raiseError k).issuer = s.issuer := rfl
@[simp] theorem State.raiseError_responses (s : State) (k : ErrorKind) : (s.raiseError k).responses = s.responses ++ [.error k] := rfl

/-! `raise Fault` writes `FAULT` and the responses (60_exceptions.md R175). -/

@[simp] theorem State.raiseFault_dstate (s : State) (k : FaultKind) : (s.raiseFault k).dstate = s.dstate := rfl
@[simp] theorem State.raiseFault_dlen (s : State) (k : FaultKind) : (s.raiseFault k).dlen = s.dlen := rfl
@[simp] theorem State.raiseFault_dcnt (s : State) (k : FaultKind) : (s.raiseFault k).dcnt = s.dcnt := rfl
@[simp] theorem State.raiseFault_dbuf (s : State) (k : FaultKind) : (s.raiseFault k).dbuf = s.dbuf := rfl
@[simp] theorem State.raiseFault_q (s : State) (k : FaultKind) : (s.raiseFault k).q = s.q := rfl
@[simp] theorem State.raiseFault_fault (s : State) (k : FaultKind) : (s.raiseFault k).fault = faultCode k := rfl
@[simp] theorem State.raiseFault_refusal (s : State) (k : FaultKind) : (s.raiseFault k).refusal = s.refusal := rfl
@[simp] theorem State.raiseFault_port (s : State) (k : FaultKind) : (s.raiseFault k).port = s.port := rfl
@[simp] theorem State.raiseFault_issuer (s : State) (k : FaultKind) : (s.raiseFault k).issuer = s.issuer := rfl
@[simp] theorem State.raiseFault_responses (s : State) (k : FaultKind) : (s.raiseFault k).responses = s.responses ++ [.faulted (faultCode k)] := rfl

/-! A refusal writes its mark only (60_exceptions.md R177). -/

@[simp] theorem State.markRefused_dstate (s : State) : (s.markRefused).dstate = s.dstate := rfl
@[simp] theorem State.markRefused_dlen (s : State) : (s.markRefused).dlen = s.dlen := rfl
@[simp] theorem State.markRefused_dcnt (s : State) : (s.markRefused).dcnt = s.dcnt := rfl
@[simp] theorem State.markRefused_dbuf (s : State) : (s.markRefused).dbuf = s.dbuf := rfl
@[simp] theorem State.markRefused_q (s : State) : (s.markRefused).q = s.q := rfl
@[simp] theorem State.markRefused_fault (s : State) : (s.markRefused).fault = s.fault := rfl
@[simp] theorem State.markRefused_refusal (s : State) : (s.markRefused).refusal = true := rfl
@[simp] theorem State.markRefused_port (s : State) : (s.markRefused).port = s.port := rfl
@[simp] theorem State.markRefused_issuer (s : State) : (s.markRefused).issuer = s.issuer := rfl
@[simp] theorem State.markRefused_responses (s : State) : (s.markRefused).responses = s.responses := rfl

/-! The deframer's reset (40_deframer.md R100). -/

@[simp] theorem State.clearDeframer_dstate (s : State) : (s.clearDeframer).dstate = .desync := rfl
@[simp] theorem State.clearDeframer_dlen (s : State) : (s.clearDeframer).dlen = 0 := rfl
@[simp] theorem State.clearDeframer_dcnt (s : State) : (s.clearDeframer).dcnt = 0 := rfl
@[simp] theorem State.clearDeframer_dbuf (s : State) : (s.clearDeframer).dbuf = s.dbuf := rfl
@[simp] theorem State.clearDeframer_q (s : State) : (s.clearDeframer).q = s.q := rfl
@[simp] theorem State.clearDeframer_fault (s : State) : (s.clearDeframer).fault = s.fault := rfl
@[simp] theorem State.clearDeframer_refusal (s : State) : (s.clearDeframer).refusal = s.refusal := rfl
@[simp] theorem State.clearDeframer_port (s : State) : (s.clearDeframer).port = s.port := rfl
@[simp] theorem State.clearDeframer_issuer (s : State) : (s.clearDeframer).issuer = s.issuer := rfl
@[simp] theorem State.clearDeframer_responses (s : State) : (s.clearDeframer).responses = s.responses := rfl

/-! The FIFO replaced. -/

@[simp] theorem State.withFifo_dstate (s : State) (es : List Entry) : (s.withFifo es).dstate = s.dstate := rfl
@[simp] theorem State.withFifo_dlen (s : State) (es : List Entry) : (s.withFifo es).dlen = s.dlen := rfl
@[simp] theorem State.withFifo_dcnt (s : State) (es : List Entry) : (s.withFifo es).dcnt = s.dcnt := rfl
@[simp] theorem State.withFifo_dbuf (s : State) (es : List Entry) : (s.withFifo es).dbuf = s.dbuf := rfl
@[simp] theorem State.withFifo_q (s : State) (es : List Entry) : (s.withFifo es).q = es := rfl
@[simp] theorem State.withFifo_fault (s : State) (es : List Entry) : (s.withFifo es).fault = s.fault := rfl
@[simp] theorem State.withFifo_refusal (s : State) (es : List Entry) : (s.withFifo es).refusal = s.refusal := rfl
@[simp] theorem State.withFifo_port (s : State) (es : List Entry) : (s.withFifo es).port = s.port := rfl
@[simp] theorem State.withFifo_issuer (s : State) (es : List Entry) : (s.withFifo es).issuer = s.issuer := rfl
@[simp] theorem State.withFifo_responses (s : State) (es : List Entry) : (s.withFifo es).responses = s.responses := rfl

/-! The FIFO extended (42_fifo.md R140). -/

@[simp] theorem State.pushEntry_dstate (s : State) (e : Entry) : (s.pushEntry e).dstate = s.dstate := rfl
@[simp] theorem State.pushEntry_dlen (s : State) (e : Entry) : (s.pushEntry e).dlen = s.dlen := rfl
@[simp] theorem State.pushEntry_dcnt (s : State) (e : Entry) : (s.pushEntry e).dcnt = s.dcnt := rfl
@[simp] theorem State.pushEntry_dbuf (s : State) (e : Entry) : (s.pushEntry e).dbuf = s.dbuf := rfl
@[simp] theorem State.pushEntry_q (s : State) (e : Entry) : (s.pushEntry e).q = s.q ++ [e] := rfl
@[simp] theorem State.pushEntry_fault (s : State) (e : Entry) : (s.pushEntry e).fault = s.fault := rfl
@[simp] theorem State.pushEntry_refusal (s : State) (e : Entry) : (s.pushEntry e).refusal = s.refusal := rfl
@[simp] theorem State.pushEntry_port (s : State) (e : Entry) : (s.pushEntry e).port = s.port := rfl
@[simp] theorem State.pushEntry_issuer (s : State) (e : Entry) : (s.pushEntry e).issuer = s.issuer := rfl
@[simp] theorem State.pushEntry_responses (s : State) (e : Entry) : (s.pushEntry e).responses = s.responses := rfl

/-! The FIFO emptied (42_fifo.md R144). -/

@[simp] theorem State.clearFifo_dstate (s : State) : (s.clearFifo).dstate = s.dstate := rfl
@[simp] theorem State.clearFifo_dlen (s : State) : (s.clearFifo).dlen = s.dlen := rfl
@[simp] theorem State.clearFifo_dcnt (s : State) : (s.clearFifo).dcnt = s.dcnt := rfl
@[simp] theorem State.clearFifo_dbuf (s : State) : (s.clearFifo).dbuf = s.dbuf := rfl
@[simp] theorem State.clearFifo_q (s : State) : (s.clearFifo).q = [] := rfl
@[simp] theorem State.clearFifo_fault (s : State) : (s.clearFifo).fault = s.fault := rfl
@[simp] theorem State.clearFifo_refusal (s : State) : (s.clearFifo).refusal = s.refusal := rfl
@[simp] theorem State.clearFifo_port (s : State) : (s.clearFifo).port = s.port := rfl
@[simp] theorem State.clearFifo_issuer (s : State) : (s.clearFifo).issuer = s.issuer := rfl
@[simp] theorem State.clearFifo_responses (s : State) : (s.clearFifo).responses = s.responses := rfl

/-! Power-on reset (70_reset_and_hazards.md R200). -/

@[simp] theorem State.powerOn_dstate (s : State) : (s.powerOn).dstate = .desync := rfl
@[simp] theorem State.powerOn_dlen (s : State) : (s.powerOn).dlen = 0 := rfl
@[simp] theorem State.powerOn_dcnt (s : State) : (s.powerOn).dcnt = 0 := rfl
@[simp] theorem State.powerOn_dbuf (s : State) : (s.powerOn).dbuf = [] := rfl
@[simp] theorem State.powerOn_q (s : State) : (s.powerOn).q = [] := rfl
@[simp] theorem State.powerOn_fault (s : State) : (s.powerOn).fault = 0 := rfl
@[simp] theorem State.powerOn_refusal (s : State) : (s.powerOn).refusal = s.refusal := rfl
@[simp] theorem State.powerOn_port (s : State) : (s.powerOn).port = s.port := rfl
@[simp] theorem State.powerOn_issuer (s : State) : (s.powerOn).issuer = .worker := rfl
@[simp] theorem State.powerOn_responses (s : State) : (s.powerOn).responses = s.responses := rfl

/-! The issuing agent noted. -/

@[simp] theorem State.issuedBy_dstate (s : State) (a : Agent) : (s.issuedBy a).dstate = s.dstate := rfl
@[simp] theorem State.issuedBy_dlen (s : State) (a : Agent) : (s.issuedBy a).dlen = s.dlen := rfl
@[simp] theorem State.issuedBy_dcnt (s : State) (a : Agent) : (s.issuedBy a).dcnt = s.dcnt := rfl
@[simp] theorem State.issuedBy_dbuf (s : State) (a : Agent) : (s.issuedBy a).dbuf = s.dbuf := rfl
@[simp] theorem State.issuedBy_q (s : State) (a : Agent) : (s.issuedBy a).q = s.q := rfl
@[simp] theorem State.issuedBy_fault (s : State) (a : Agent) : (s.issuedBy a).fault = s.fault := rfl
@[simp] theorem State.issuedBy_refusal (s : State) (a : Agent) : (s.issuedBy a).refusal = s.refusal := rfl
@[simp] theorem State.issuedBy_port (s : State) (a : Agent) : (s.issuedBy a).port = s.port := rfl
@[simp] theorem State.issuedBy_issuer (s : State) (a : Agent) : (s.issuedBy a).issuer = a := rfl
@[simp] theorem State.issuedBy_responses (s : State) (a : Agent) : (s.issuedBy a).responses = s.responses := rfl

/-! A byte in `Desync` (40_deframer.md R92). -/

@[simp] theorem byteInDesync_dstate (s : State) (b : Byte) : (byteInDesync b s).dstate = (if b = Config.sync0 then .syncMark else .desync) := rfl
@[simp] theorem byteInDesync_dlen (s : State) (b : Byte) : (byteInDesync b s).dlen = s.dlen := rfl
@[simp] theorem byteInDesync_dcnt (s : State) (b : Byte) : (byteInDesync b s).dcnt = s.dcnt := rfl
@[simp] theorem byteInDesync_dbuf (s : State) (b : Byte) : (byteInDesync b s).dbuf = s.dbuf := rfl
@[simp] theorem byteInDesync_q (s : State) (b : Byte) : (byteInDesync b s).q = s.q := rfl
@[simp] theorem byteInDesync_fault (s : State) (b : Byte) : (byteInDesync b s).fault = s.fault := rfl
@[simp] theorem byteInDesync_refusal (s : State) (b : Byte) : (byteInDesync b s).refusal = s.refusal := rfl
@[simp] theorem byteInDesync_port (s : State) (b : Byte) : (byteInDesync b s).port = s.port := rfl
@[simp] theorem byteInDesync_issuer (s : State) (b : Byte) : (byteInDesync b s).issuer = s.issuer := rfl
@[simp] theorem byteInDesync_responses (s : State) (b : Byte) : (byteInDesync b s).responses = s.responses := rfl

/-! A byte in `SyncMark` (40_deframer.md R93). -/

@[simp] theorem byteInSyncMark_dstate (s : State) (b : Byte) : (byteInSyncMark b s).dstate = (if b = Config.sync1 then .synced else if b = Config.sync0 then .syncMark else .desync) := rfl
@[simp] theorem byteInSyncMark_dlen (s : State) (b : Byte) : (byteInSyncMark b s).dlen = s.dlen := rfl
@[simp] theorem byteInSyncMark_dcnt (s : State) (b : Byte) : (byteInSyncMark b s).dcnt = s.dcnt := rfl
@[simp] theorem byteInSyncMark_dbuf (s : State) (b : Byte) : (byteInSyncMark b s).dbuf = s.dbuf := rfl
@[simp] theorem byteInSyncMark_q (s : State) (b : Byte) : (byteInSyncMark b s).q = s.q := rfl
@[simp] theorem byteInSyncMark_fault (s : State) (b : Byte) : (byteInSyncMark b s).fault = s.fault := rfl
@[simp] theorem byteInSyncMark_refusal (s : State) (b : Byte) : (byteInSyncMark b s).refusal = s.refusal := rfl
@[simp] theorem byteInSyncMark_port (s : State) (b : Byte) : (byteInSyncMark b s).port = s.port := rfl
@[simp] theorem byteInSyncMark_issuer (s : State) (b : Byte) : (byteInSyncMark b s).issuer = s.issuer := rfl
@[simp] theorem byteInSyncMark_responses (s : State) (b : Byte) : (byteInSyncMark b s).responses = s.responses := rfl

/-! A byte in `Synced` (40_deframer.md R94). -/

@[simp] theorem byteInSynced_dstate (s : State) (b : Byte) : (byteInSynced b s).dstate = (if b = 0 then .verifyChecksum else .reading) := rfl
@[simp] theorem byteInSynced_dlen (s : State) (b : Byte) : (byteInSynced b s).dlen = b := rfl
@[simp] theorem byteInSynced_dcnt (s : State) (b : Byte) : (byteInSynced b s).dcnt = 0 := rfl
@[simp] theorem byteInSynced_dbuf (s : State) (b : Byte) : (byteInSynced b s).dbuf = s.dbuf := rfl
@[simp] theorem byteInSynced_q (s : State) (b : Byte) : (byteInSynced b s).q = s.q := rfl
@[simp] theorem byteInSynced_fault (s : State) (b : Byte) : (byteInSynced b s).fault = s.fault := rfl
@[simp] theorem byteInSynced_refusal (s : State) (b : Byte) : (byteInSynced b s).refusal = s.refusal := rfl
@[simp] theorem byteInSynced_port (s : State) (b : Byte) : (byteInSynced b s).port = s.port := rfl
@[simp] theorem byteInSynced_issuer (s : State) (b : Byte) : (byteInSynced b s).issuer = s.issuer := rfl
@[simp] theorem byteInSynced_responses (s : State) (b : Byte) : (byteInSynced b s).responses = s.responses := rfl

/-! A byte in `Reading` (40_deframer.md R95). -/

@[simp] theorem byteInReading_dstate (s : State) (m : List Host.Cell) : (byteInReading m s).dstate = (if s.dcnt + 1 = s.dlen then .verifyChecksum else .reading) := rfl
@[simp] theorem byteInReading_dlen (s : State) (m : List Host.Cell) : (byteInReading m s).dlen = s.dlen := rfl
@[simp] theorem byteInReading_dcnt (s : State) (m : List Host.Cell) : (byteInReading m s).dcnt = s.dcnt + 1 := rfl
@[simp] theorem byteInReading_dbuf (s : State) (m : List Host.Cell) : (byteInReading m s).dbuf = m := rfl
@[simp] theorem byteInReading_q (s : State) (m : List Host.Cell) : (byteInReading m s).q = s.q := rfl
@[simp] theorem byteInReading_fault (s : State) (m : List Host.Cell) : (byteInReading m s).fault = s.fault := rfl
@[simp] theorem byteInReading_refusal (s : State) (m : List Host.Cell) : (byteInReading m s).refusal = s.refusal := rfl
@[simp] theorem byteInReading_port (s : State) (m : List Host.Cell) : (byteInReading m s).port = s.port := rfl
@[simp] theorem byteInReading_issuer (s : State) (m : List Host.Cell) : (byteInReading m s).issuer = s.issuer := rfl
@[simp] theorem byteInReading_responses (s : State) (m : List Host.Cell) : (byteInReading m s).responses = s.responses := rfl

end Sys2Proof.Machine
end

