-- ==== Sys2Proof/Laws/Exec.lean ====
section
/-! SUPPORT. What each shared operation and each command can do, said once (60_exceptions.md R178). -/

namespace Sys2Proof.Machine

@[simp] theorem isFaulted_eq_false {s : State} : isFaulted s = false ↔ s.fault = 0 := by
  simp [isFaulted]

@[simp] theorem isFaulted_eq_true {s : State} : isFaulted s = true ↔ s.fault ≠ 0 := by
  simp [isFaulted]

@[simp] theorem workerOnly_worker : workerOnly .worker = true := rfl

@[simp] theorem workerOnly_producer (n : Nat) : workerOnly (.producer n) = false := rfl

@[simp] theorem anyAgent_true (a : Agent) : anyAgent a = true := by cases a <;> rfl

@[simp] theorem payloadTooLong_eq_true {p : List Byte} : payloadTooLong p = true ↔ 255 < p.length := by
  simp [payloadTooLong]

@[simp] theorem payloadTooLong_eq_false {p : List Byte} : payloadTooLong p = false ↔ p.length ≤ 255 := by
  simp [payloadTooLong]

theorem framePayload_ok {p : List Byte} (h : p.length ≤ 255) : framePayload p = .ok (frameOf p) := by
  rw [framePayload, payloadTooLong_eq_false.mpr h]
  rfl

theorem framePayload_tooLong {p : List Byte} (h : 255 < p.length) : framePayload p = .error .payloadTooLong := by
  rw [framePayload, if_pos (payloadTooLong_eq_true.mpr h)]

theorem performed_of_fault {allowed : Agent → Bool} {rule : State → Host.Outcome State Fault Refusal} {s : State}
    (h : s.fault ≠ 0) : performed allowed rule s = .next (s.respond (.faulted s.fault)) := by
  rw [performed, if_pos (isFaulted_eq_true.mpr h)]

theorem performed_of_allowed {allowed : Agent → Bool} {rule : State → Host.Outcome State Fault Refusal} {s : State}
    (h : s.fault = 0) (ha : allowed s.issuer = true) : performed allowed rule s = rule s := by
  simp [performed, isFaulted, h, ha]

theorem performed_of_refused {allowed : Agent → Bool} {rule : State → Host.Outcome State Fault Refusal} {s : State}
    (h : s.fault = 0) (ha : allowed s.issuer = false) : performed allowed rule s = .next s.markRefused := by
  simp [performed, isFaulted, h, ha]

/-- Everything a command can do before its own rule is reached, and then its rule (60_exceptions.md R178). -/
theorem performed_cases {allowed : Agent → Bool} {rule : State → Host.Outcome State Fault Refusal} {s t : State}
    (h : performed allowed rule s = .next t) :
    (s.fault ≠ 0 ∧ t = s.respond (.faulted s.fault)) ∨ (s.fault = 0 ∧ allowed s.issuer = true ∧ rule s = .next t) ∨
      (s.fault = 0 ∧ allowed s.issuer = false ∧ t = s.markRefused) := by
  by_cases hf : s.fault = 0
  · by_cases ha : allowed s.issuer = true
    · rw [performed_of_allowed hf ha] at h
      exact .inr (.inl ⟨hf, ha, h⟩)
    · rw [performed_of_refused hf (by simpa using ha)] at h
      cases h
      exact .inr (.inr ⟨hf, by simpa using ha, rfl⟩)
  · rw [performed_of_fault hf] at h
    cases h
    exact .inl ⟨hf, rfl⟩

/-- The rule of each command once fault and agent are settled. -/
def ruleOf : Instr → State → Host.Outcome State Fault Refusal
  | .decByte b, s => feedByte b s
  | .decReset, s => .next (s.clearDeframer.respond .none)
  | .encP p, s => .next (s.respondResult (framePayload p))
  | .encF f, s => .next (s.respond (.data f))
  | .encHp x, s => .next (s.respondResult (frameHexPayload x))
  | .encHf x, s => .next (s.respondResult (hexDecode x))
  | .qEnq bytes now, s => .next (enqueue Config.limits bytes now s)
  | .qDeq, s => .next (dequeue s)
  | .qClr, s => .next (s.clearFifo.respond .none)
  | .blkReset, s => .next (s.clearDeframer.clearFifo.respond .none)

/-- Every command checks fault and agent in the same way (60_exceptions.md R178). -/
theorem exec_eq_performed (i : Instr) (s : State) : exec i s = performed (fun a => mayIssue a i) (ruleOf i) s := by
  cases i <;> rfl

/-- Everything a command can do: answer the fault, run its rule, or be refused. -/
theorem exec_cases {i : Instr} {s t : State} (h : exec i s = .next t) :
    (s.fault ≠ 0 ∧ t = s.respond (.faulted s.fault)) ∨ (s.fault = 0 ∧ mayIssue s.issuer i = true ∧ ruleOf i s = .next t) ∨
      (s.fault = 0 ∧ mayIssue s.issuer i = false ∧ t = s.markRefused) :=
  performed_cases (exec_eq_performed i s ▸ h)

/-- Everything an illegal word can do (43_control.md R161). -/
theorem execIllegal_eq (s : State) :
    execIllegal s = .next (if s.fault = 0 then s.raiseError .illegalOp else s.respond (.faulted s.fault)) := by
  by_cases h : s.fault = 0
  · rw [execIllegal, performed_of_allowed h (anyAgent_true _), if_pos h]
  · rw [execIllegal, performed_of_fault h, if_neg h]

/-- The rows of the deframer's table (40_deframer.md R90): what a byte does in each decoder state. -/
theorem feedByte_cases {b : Byte} {s t : State} (h : feedByte b s = .next t) :
    (s.dstate = .desync ∧ t = (byteInDesync b s).respond .none) ∨
    (s.dstate = .syncMark ∧ t = (byteInSyncMark b s).respond .none) ∨
    (s.dstate = .synced ∧ t = (byteInSynced b s).respond .none) ∨
    (s.dstate = .reading ∧ ∃ m, Memory.write s.dbuf s.dcnt.toNat b = some m ∧ t = (byteInReading m s).respond .none) ∨
    (s.dstate = .verifyChecksum ∧ t = s.clearDeframer.respond (verdict b s)) := by
  unfold feedByte at h
  split at h
  · rename_i hd; cases h; exact .inl ⟨hd, rfl⟩
  · rename_i hd; cases h; exact .inr (.inl ⟨hd, rfl⟩)
  · rename_i hd; cases h; exact .inr (.inr (.inl ⟨hd, rfl⟩))
  · rename_i hd
    split at h
    · rename_i m hm; cases h; exact .inr (.inr (.inr (.inl ⟨hd, m, hm, rfl⟩)))
    · cases h
  · rename_i hd; cases h; exact .inr (.inr (.inr (.inr ⟨hd, rfl⟩)))

theorem feedByte_desync {b : Byte} {s : State} (h : s.dstate = .desync) :
    feedByte b s = .next ((byteInDesync b s).respond .none) := by
  rw [feedByte, h]

theorem feedByte_syncMark {b : Byte} {s : State} (h : s.dstate = .syncMark) :
    feedByte b s = .next ((byteInSyncMark b s).respond .none) := by
  rw [feedByte, h]

theorem feedByte_synced {b : Byte} {s : State} (h : s.dstate = .synced) :
    feedByte b s = .next ((byteInSynced b s).respond .none) := by
  rw [feedByte, h]

theorem feedByte_reading {b : Byte} {s : State} (h : s.dstate = .reading) (hc : s.dcnt.toNat < 255) :
    feedByte b s = .next ((byteInReading (Memory.put s.dbuf s.dcnt.toNat b) s).respond .none) := by
  rw [feedByte, h]
  simp only [Memory.write_some b hc]

theorem feedByte_verifyChecksum {b : Byte} {s : State} (h : s.dstate = .verifyChecksum) :
    feedByte b s = .next (s.clearDeframer.respond (verdict b s)) := by
  rw [feedByte, h]

/-- The only stop of the model: a byte in `Reading` with `DCNT = 255`. -/
theorem feedByte_next {b : Byte} {s : State} (h : s.dstate = .reading → s.dcnt.toNat < 255) :
    ∃ t, feedByte b s = .next t := by
  unfold feedByte
  cases hd : s.dstate with
  | reading => rw [Memory.write_some b (h hd)]; exact ⟨_, rfl⟩
  | desync => exact ⟨_, rfl⟩
  | syncMark => exact ⟨_, rfl⟩
  | synced => exact ⟨_, rfl⟩
  | verifyChecksum => exact ⟨_, rfl⟩

/-- The checksum byte is answered with one of two responses (40_deframer.md R96, R97). -/
theorem verdict_cases (b : Byte) (s : State) :
    (b = csum8 s.dlen (Memory.prefixBytes s.dbuf s.dlen.toNat) ∧
      verdict b s = .deliver (Memory.prefixBytes s.dbuf s.dlen.toNat)) ∨
    (b ≠ csum8 s.dlen (Memory.prefixBytes s.dbuf s.dlen.toNat) ∧
      verdict b s = .reject s.dlen b (csum8 s.dlen (Memory.prefixBytes s.dbuf s.dlen.toNat))) := by
  unfold verdict
  split
  · rename_i h; exact .inl ⟨h, rfl⟩
  · rename_i h; exact .inr ⟨h, rfl⟩

/-- With unbounded limits an enqueue appends (42_fifo.md R146). -/
@[simp] theorem enqueue_unbounded (bytes : List Byte) (t : Config.TS) (s : State) :
    enqueue Config.limits bytes t s = (s.pushEntry { ts := t, bytes := bytes }).respond .none := rfl

/-- Everything an enqueue can do under given limits (42_fifo.md R140, R148, R149). -/
theorem enqueue_cases (lim : Config.Limits) (bytes : List Byte) (t : Config.TS) (s : State) :
    (fifoFull lim s.q = true ∧ enqueue lim bytes t s = s.raiseFault .queueOverflow) ∨
    (fifoFull lim s.q = false ∧ entryTooLong lim bytes = true ∧ enqueue lim bytes t s = s.raiseFault .entryTooLong) ∨
    (fifoFull lim s.q = false ∧ entryTooLong lim bytes = false ∧
      enqueue lim bytes t s = (s.pushEntry { ts := t, bytes := bytes }).respond .none) := by
  unfold enqueue
  cases fifoFull lim s.q <;> cases entryTooLong lim bytes <;> simp

/-- Everything a dequeue can do (42_fifo.md R142). -/
theorem dequeue_cases (s : State) :
    (s.q = [] ∧ dequeue s = s.respond .empty) ∨
    ∃ e rest, s.q = e :: rest ∧ dequeue s = (s.withFifo rest).respond (.entry e.ts e.bytes) := by
  unfold dequeue
  cases hq : s.q with
  | nil => exact .inl ⟨rfl, rfl⟩
  | cons e rest => exact .inr ⟨e, rest, rfl, rfl⟩

/-- A framer result is answered by one response and changes nothing else (41_framer.md R126). -/
theorem respondResult_cases (s : State) (x : Except ErrorKind (List Byte)) :
    ∃ r, s.respondResult x = s.respond r ∧ ((∃ bytes, r = .data bytes) ∨ ∃ k, r = .error k) := by
  cases x with
  | ok bytes => exact ⟨_, rfl, .inl ⟨_, rfl⟩⟩
  | error k => exact ⟨_, rfl, .inr ⟨_, rfl⟩⟩

/-- Every rule gives exactly one response and leaves the port, the issuer, `FAULT` and the mark alone. -/
theorem ruleOf_frame {i : Instr} {s t : State} (h : ruleOf i s = .next t) :
    ∃ r, t.responses = s.responses ++ [r] ∧ t.port = s.port ∧ t.issuer = s.issuer ∧ t.fault = s.fault ∧
      t.refusal = s.refusal := by
  cases i with
  | decByte b =>
    rcases feedByte_cases h with ⟨_, rfl⟩ | ⟨_, rfl⟩ | ⟨_, rfl⟩ | ⟨_, m, _, rfl⟩ | ⟨_, rfl⟩ <;>
      exact ⟨_, rfl, rfl, rfl, rfl, rfl⟩
  | encP p =>
    cases h
    obtain ⟨r, h, _⟩ := respondResult_cases s (framePayload p)
    rw [h]
    exact ⟨_, rfl, rfl, rfl, rfl, rfl⟩
  | encHp x =>
    cases h
    obtain ⟨r, h, _⟩ := respondResult_cases s (frameHexPayload x)
    rw [h]
    exact ⟨_, rfl, rfl, rfl, rfl, rfl⟩
  | encHf x =>
    cases h
    obtain ⟨r, h, _⟩ := respondResult_cases s (hexDecode x)
    rw [h]
    exact ⟨_, rfl, rfl, rfl, rfl, rfl⟩
  | qDeq =>
    cases h
    rcases dequeue_cases s with ⟨_, h⟩ | ⟨_, _, _, h⟩ <;> rw [h] <;> exact ⟨_, rfl, rfl, rfl, rfl, rfl⟩
  | decReset => cases h; exact ⟨_, rfl, rfl, rfl, rfl, rfl⟩
  | encF f => cases h; exact ⟨_, rfl, rfl, rfl, rfl, rfl⟩
  | qEnq bytes now => cases h; exact ⟨_, rfl, rfl, rfl, rfl, rfl⟩
  | qClr => cases h; exact ⟨_, rfl, rfl, rfl, rfl, rfl⟩
  | blkReset => cases h; exact ⟨_, rfl, rfl, rfl, rfl, rfl⟩

/-- The rule of each command in a realization with the limits `lim`. -/
def ruleIn (lim : Config.Limits) : Instr → State → Host.Outcome State Fault Refusal
  | .qEnq bytes now, s => .next (enqueue lim bytes now s)
  | i, s => ruleOf i s

/-- Every command of a realization checks fault and agent in the same way (60_exceptions.md R178). -/
theorem execIn_eq_performed (lim : Config.Limits) (i : Instr) (s : State) :
    execIn lim i s = performed (fun a => mayIssue a i) (ruleIn lim i) s := by
  cases i <;> rfl

/-- Everything a command of a realization can do. -/
theorem execIn_cases {lim : Config.Limits} {i : Instr} {s t : State} (h : execIn lim i s = .next t) :
    (s.fault ≠ 0 ∧ t = s.respond (.faulted s.fault)) ∨
      (s.fault = 0 ∧ mayIssue s.issuer i = true ∧ ruleIn lim i s = .next t) ∨
      (s.fault = 0 ∧ mayIssue s.issuer i = false ∧ t = s.markRefused) :=
  performed_cases (execIn_eq_performed lim i s ▸ h)

/-- This hardware's commands are those of the realization with unbounded limits (42_fifo.md R148, R149). -/
@[simp] theorem execIn_limits (i : Instr) (s : State) : execIn Config.limits i s = exec i s := by cases i <;> rfl

/-- This hardware is the realization with unbounded limits (00_scope.md R8). -/
@[simp] theorem stepIn_limits (s : State) : stepIn Config.limits s = step s := by
  rw [stepIn, step, show execIn Config.limits = exec from funext fun i => funext (execIn_limits i)]

theorem core_eq_realization : Sys2Proof.core = realization Config.limits := by
  rw [realization, show stepIn Config.limits = step from funext stepIn_limits]
  rfl

section

variable {run : Instr → State → Host.Outcome State Fault Refusal} {s : State} {rest : List Stimulus} {c : Command}

theorem stepBy_of_empty (h : s.port = []) : stepBy run s = .next s := by simp [stepBy, takeStimulus, h]

theorem stepBy_of_powerOn (h : s.port = .powerOn :: rest) : stepBy run s = .next ({ s with port := rest }).powerOn := by
  simp [stepBy, takeStimulus, h]

theorem stepBy_of_legal {i : Instr} (h : s.port = .command c :: rest) (hd : decode c.cmd c.opnd c.now = .ok i) :
    stepBy run s = run i (({ s with port := rest }).issuedBy c.agent) := by
  simp [stepBy, takeStimulus, h, hd]

theorem stepBy_of_illegal {e : DecodeError} (h : s.port = .command c :: rest)
    (hd : decode c.cmd c.opnd c.now = .error e) :
    stepBy run s = execIllegal (({ s with port := rest }).issuedBy c.agent) := by
  simp [stepBy, takeStimulus, h, hd]

end

/-- Everything a step can do, whatever performs its commands, said once. -/
theorem stepBy_cases (run : Instr → State → Host.Outcome State Fault Refusal) (s : State) :
    (s.port = [] ∧ stepBy run s = .next s) ∨
    (∃ rest, s.port = .powerOn :: rest ∧ stepBy run s = .next ({ s with port := rest }).powerOn) ∨
    (∃ c rest i, s.port = .command c :: rest ∧ decode c.cmd c.opnd c.now = .ok i ∧
      stepBy run s = run i (({ s with port := rest }).issuedBy c.agent)) ∨
    (∃ c rest e, s.port = .command c :: rest ∧ decode c.cmd c.opnd c.now = .error e ∧
      stepBy run s = execIllegal (({ s with port := rest }).issuedBy c.agent)) := by
  cases hp : s.port with
  | nil => exact .inl ⟨rfl, stepBy_of_empty hp⟩
  | cons x rest =>
    cases x with
    | powerOn => exact .inr (.inl ⟨rest, rfl, stepBy_of_powerOn hp⟩)
    | command c =>
      cases hd : decode c.cmd c.opnd c.now with
      | ok i => exact .inr (.inr (.inl ⟨c, rest, i, rfl, hd, stepBy_of_legal hp hd⟩))
      | error e => exact .inr (.inr (.inr ⟨c, rest, e, rfl, hd, stepBy_of_illegal hp hd⟩))

theorem step_of_empty {s : State} (h : s.port = []) : step s = .next s := stepBy_of_empty h

theorem step_of_powerOn {s : State} {rest : List Stimulus} (h : s.port = .powerOn :: rest) :
    step s = .next ({ s with port := rest }).powerOn := stepBy_of_powerOn h

theorem step_of_legal {s : State} {c : Command} {rest : List Stimulus} {i : Instr} (h : s.port = .command c :: rest)
    (hd : decode c.cmd c.opnd c.now = .ok i) : step s = exec i (({ s with port := rest }).issuedBy c.agent) :=
  stepBy_of_legal h hd

theorem step_of_illegal {s : State} {c : Command} {rest : List Stimulus} {e : DecodeError}
    (h : s.port = .command c :: rest) (hd : decode c.cmd c.opnd c.now = .error e) :
    step s = execIllegal (({ s with port := rest }).issuedBy c.agent) := stepBy_of_illegal h hd

/-- Everything a step of this hardware can do. -/
theorem step_cases (s : State) :
    (s.port = [] ∧ step s = .next s) ∨
    (∃ rest, s.port = .powerOn :: rest ∧ step s = .next ({ s with port := rest }).powerOn) ∨
    (∃ c rest i, s.port = .command c :: rest ∧ decode c.cmd c.opnd c.now = .ok i ∧
      step s = exec i (({ s with port := rest }).issuedBy c.agent)) ∨
    (∃ c rest e, s.port = .command c :: rest ∧ decode c.cmd c.opnd c.now = .error e ∧
      step s = execIllegal (({ s with port := rest }).issuedBy c.agent)) := stepBy_cases exec s

end Sys2Proof.Machine
end

