-- ==== Sys2Proof/Laws/Operands.lean ====
section
/-! SUPPORT. The checksum and the frame (00_scope.md R12; 30_encoding.md R60). -/

namespace Sys2Proof.Machine

@[simp] theorem byteSum_nil : byteSum [] = 0 := rfl

@[simp] theorem byteSum_cons (b : Byte) (p : List Byte) : byteSum (b :: p) = b.toNat + byteSum p := by
  simp [byteSum]

@[simp] theorem byteSum_append (p r : List Byte) : byteSum (p ++ r) = byteSum p + byteSum r := by
  simp [byteSum]

/-- The checksum as a number (00_scope.md R12). -/
theorem csum8_toNat (n : Byte) (p : List Byte) :
    (csum8 n p).toNat = (256 - (n.toNat + byteSum p) % 256) % 256 := by
  simp [csum8]

/-- The checksum depends on the length and on the sum only (40_deframer.md R105). -/
theorem csum8_congr {n : Byte} {p r : List Byte} (h : byteSum p % 256 = byteSum r % 256) : csum8 n p = csum8 n r := by
  simp only [csum8]
  rw [show (n.toNat + byteSum p) % 256 = (n.toNat + byteSum r) % 256 by omega]

@[simp] theorem frameOf_length (p : List Byte) : (frameOf p).length = p.length + 4 := by
  simp [frameOf]

/-- A payload of at most 255 bytes has a length byte that says its length. -/
theorem lengthByte_toNat {p : List Byte} (h : p.length ≤ 255) : (BitVec.ofNat 8 p.length).toNat = p.length := by
  simp; omega

end Sys2Proof.Machine
end

