-- ==== Sys2Proof/Laws/PerInstr.lean ====
section
/-! SUPPORT. Statements about every instruction as syntax, one lemma per constructor: its command word is a word of the opcode map
(30_encoding.md R67), and the group field of the word is the one of its row. -/

namespace Sys2Proof.Laws

/-- The `op` field the opcode map gives each command (30_encoding.md R67). -/
def opcodeGroup : Instr → BitVec 4
  | .decByte _ => 1
  | .decReset => 2
  | .encP _ => 3
  | .encF _ => 3
  | .encHp _ => 3
  | .encHf _ => 3
  | .qEnq _ _ => 4
  | .qDeq => 5
  | .qClr => 6
  | .blkReset => 7

/-- The command word of `i` is legal and carries the group of its row. -/
def EncodesLegally.Statement (i : Instr) : Prop :=
  legalWord (encodeWord i) = true ∧ opField (encodeWord i) = opcodeGroup i

theorem EncodesLegally.decByte (b : Byte) : EncodesLegally.Statement (.decByte b) := by
  refine ⟨?_, opField_layout _ _ _ _⟩
  revert b
  decide

theorem EncodesLegally.decReset : EncodesLegally.Statement .decReset := by unfold EncodesLegally.Statement; decide

theorem EncodesLegally.encP (opnd : List Byte) : EncodesLegally.Statement (.encP opnd) :=
  ⟨by simp only [encodeWord]; decide, opField_layout _ _ _ _⟩

theorem EncodesLegally.encF (opnd : List Byte) : EncodesLegally.Statement (.encF opnd) :=
  ⟨by simp only [encodeWord]; decide, opField_layout _ _ _ _⟩

theorem EncodesLegally.encHp (opnd : List Byte) : EncodesLegally.Statement (.encHp opnd) :=
  ⟨by simp only [encodeWord]; decide, opField_layout _ _ _ _⟩

theorem EncodesLegally.encHf (opnd : List Byte) : EncodesLegally.Statement (.encHf opnd) :=
  ⟨by simp only [encodeWord]; decide, opField_layout _ _ _ _⟩

theorem EncodesLegally.qEnq (opnd : List Byte) (now : Config.TS) : EncodesLegally.Statement (.qEnq opnd now) :=
  ⟨by simp only [encodeWord]; decide, opField_layout _ _ _ _⟩

theorem EncodesLegally.qDeq : EncodesLegally.Statement .qDeq := by unfold EncodesLegally.Statement; decide

theorem EncodesLegally.qClr : EncodesLegally.Statement .qClr := by unfold EncodesLegally.Statement; decide

theorem EncodesLegally.blkReset : EncodesLegally.Statement .blkReset := by unfold EncodesLegally.Statement; decide

end Sys2Proof.Laws
end

