-- ==== Sys2Proof/Laws/Run.lean ====
section
/-! SUPPORT. Running several steps, and the step that feeds one byte (20_memory.md R46). -/

namespace Sys2Proof.Machine

@[simp] theorem runSteps_zero (s : State) : runSteps 0 s = .next s := rfl

theorem runSteps_succ_of_next {k : Nat} {s t : State} (h : step s = .next t) : runSteps (k + 1) s = runSteps k t := by
  simp only [runSteps, h]

/-- The step a run begins with answers a next state. -/
theorem runSteps_succ_inv {k : Nat} {s t : State} (h : runSteps (k + 1) s = .next t) :
    ∃ u, step s = .next u ∧ runSteps k u = .next t := by
  cases hs : step s with
  | next u => exact ⟨u, rfl, by rwa [runSteps_succ_of_next hs] at h⟩
  | fault r => simp [runSteps, hs] at h
  | refused r => simp [runSteps, hs] at h

/-- A run goes on from where a shorter one ends. -/
theorem runSteps_add {j k : Nat} {s t : State} (h : runSteps j s = .next t) : runSteps (j + k) s = runSteps k t := by
  induction j generalizing s with
  | zero => cases h; rw [Nat.zero_add]
  | succ j ih =>
    obtain ⟨u, hs, hu⟩ := runSteps_succ_inv h
    rw [Nat.succ_add, runSteps_succ_of_next hs, ih hu]

/-- `runSteps` is the host's run of the machine. -/
theorem runSteps_eq_core_run (k : Nat) (s : State) : runSteps k s = Host.Core.run Sys2Proof.core k s := by
  induction k generalizing s with
  | zero => rfl
  | succ k ih =>
    cases hs : step s with
    | next t =>
      have hc : Sys2Proof.core.step s = .next t := hs
      simp only [runSteps, hs, Host.Core.run, hc, ih t]
      rfl
    | fault r =>
      have hc : Sys2Proof.core.step s = .fault r := hs
      simp only [runSteps, hs, Host.Core.run, hc]
      rfl
    | refused r =>
      have hc : Sys2Proof.core.step s = .refused r := hs
      simp only [runSteps, hs, Host.Core.run, hc]
      rfl

@[simp] theorem feed_nil : feed [] = [] := rfl

@[simp] theorem feed_append (xs ys : List Byte) : feed (xs ++ ys) = feed xs ++ feed ys := by simp [feed]

/-- The command that feeds a byte decodes to `DEC.BYTE` of it. -/
theorem decode_decByte (b : Byte) (opnd : List Byte) (now : Config.TS) :
    decode (encodeWord (.decByte b)) opnd now = .ok (.decByte b) := by
  simp [decode, encodeWord]

/-- A step that feeds a byte is the deframer's transition on it. -/
theorem step_feed {b : Byte} {bytes : List Byte} {s : State} {rest : List Stimulus}
    (h : s.port = feed (b :: bytes) ++ rest) (hf : s.fault = 0) :
    step s = feedByte b { s with port := feed bytes ++ rest, issuer := .worker } := by
  have hp : s.port = .command (encode .worker (.decByte b)) :: (feed bytes ++ rest) := h
  rw [step_of_legal hp (decode_decByte b _ _), exec_eq_performed, performed_of_allowed]
  · rfl
  · exact hf
  · rfl

end Sys2Proof.Machine
end

