-- ==== Sys2Proof/Machine/Asm.lean ====
section
/-! DEFINITION. The assembly syntax of 30_encoding.md R72 and R73, one command a line: a printer and a reader. Spacing is as the
rule's examples show it, with blanks allowed at both ends. What the rule's examples leave open is the model's choice: DESIGN
CHOICE, log entry 14. -/

namespace Sys2Proof.Machine

/-- A line of assembly: nothing, a command, or a pseudo-instruction. -/
inductive AsmLine where
  | blank
  | command (i : Instr)
  | pseudo (p : Pseudo)
  deriving DecidableEq, Repr

/-- The quote character around text operands. -/
def quoteChar : Char := Char.ofNat 34

/-- A hex digit, in capitals as the spec writes them. -/
def hexDigitChar (n : Nat) : Char := if n < 10 then Char.ofNat (48 + n) else Char.ofNat (55 + n)

/-- A byte as a hex pair (00_scope.md R9). -/
def printByte (b : Byte) : List Char := [hexDigitChar (b.toNat / 16), hexDigitChar (b.toNat % 16)]

/-- Space-separated hex pairs (00_scope.md R9). -/
def printPairs : List Byte → List Char
  | [] => []
  | [b] => printByte b
  | b :: rest => printByte b ++ ' ' :: printPairs rest

/-- A byte operand in brackets. -/
def printBytes (bs : List Byte) : List Char := '[' :: (printPairs bs ++ [']'])

/-- A text operand in quotes, one character a byte. DESIGN CHOICE (log entry 14): the spec gives no escape, and a quote
or a byte of 128 and up is written as it is, so such an operand does not read back. -/
def printText (bs : List Byte) : List Char :=
  quoteChar :: (bs.map (fun b => Char.ofNat b.toNat) ++ [quoteChar])

/-- The timestamp of `Q.ENQ` and `SEND`, by its number. -/
def printNow (t : Config.TS) : List Char := ", now=".toList ++ Nat.toDigits 10 t.num

/-- A command in assembly syntax (30_encoding.md R72). -/
def printInstr : Instr → List Char
  | .decByte b => "DEC.BYTE 0x".toList ++ printByte b
  | .decReset => "DEC.RESET".toList
  | .encP p => "ENC.P ".toList ++ printBytes p
  | .encF f => "ENC.F ".toList ++ printBytes f
  | .encHp t => "ENC.HP ".toList ++ printText t
  | .encHf t => "ENC.HF ".toList ++ printText t
  | .qEnq bytes now => "Q.ENQ ".toList ++ printBytes bytes ++ printNow now
  | .qDeq => "Q.DEQ".toList
  | .qClr => "Q.CLR".toList
  | .blkReset => "BLK.RESET".toList

/-- A pseudo-instruction in assembly syntax (30_encoding.md R73). -/
def printPseudo : Pseudo → List Char
  | .decBytes bytes => "DEC.BYTES ".toList ++ printPairs bytes
  | .sendP p now => "SEND.P ".toList ++ printBytes p ++ printNow now
  | .sendF f now => "SEND.F ".toList ++ printBytes f ++ printNow now
  | .sendHp t now => "SEND.HP ".toList ++ printText t ++ printNow now
  | .sendHf t now => "SEND.HF ".toList ++ printText t ++ printNow now

/-- The text after a given beginning, if it begins so. -/
def dropStart : List Char → List Char → Option (List Char)
  | [], text => some text
  | _ :: _, [] => none
  | c :: start, d :: text => if c = d then dropStart start text else none

/-- The value of a hex digit character. -/
def readHexDigit (c : Char) : Option Byte := if c.toNat < 128 then hexVal (BitVec.ofNat 8 c.toNat) else none

/-- A hex pair. -/
def readPair (hi lo : Char) : Option Byte :=
  match readHexDigit hi, readHexDigit lo with
  | some h, some l => some (16 * h + l)
  | _, _ => none

/-- Space-separated hex pairs up to a closing bracket. -/
def readBracketed : List Char → Option (List Byte × List Char)
  | hi :: lo :: ']' :: rest => (readPair hi lo).map (fun b => ([b], rest))
  | hi :: lo :: ' ' :: rest =>
    match readPair hi lo, readBracketed rest with
    | some b, some (bs, after) => some (b :: bs, after)
    | _, _ => none
  | _ => none

/-- A byte operand in brackets. -/
def readBytes : List Char → Option (List Byte × List Char)
  | '[' :: ']' :: rest => some ([], rest)
  | '[' :: rest => readBracketed rest
  | _ => none

/-- ASCII text up to the closing quote. DESIGN CHOICE (log entry 14): the spec gives no escape, so the first quote ends
the text, a semicolon inside is text, and a character of 128 and up is refused. -/
def readQuoted : List Char → Option (List Byte × List Char)
  | [] => none
  | c :: rest =>
    if c = quoteChar then some ([], rest)
    else if c.toNat < 128 then
      (readQuoted rest).map (fun r => (BitVec.ofNat 8 c.toNat :: r.1, r.2))
    else none

/-- A text operand in quotes. -/
def readText : List Char → Option (List Byte × List Char)
  | [] => none
  | c :: rest => if c = quoteChar then readQuoted rest else none

/-- Decimal digits, most significant first, onto the value read so far. -/
def readDigits (acc : Nat) : List Char → Nat × List Char
  | [] => (acc, [])
  | c :: rest =>
    if '0' ≤ c ∧ c ≤ '9' then readDigits (10 * acc + (c.toNat - 48)) rest else (acc, c :: rest)

/-- A timestamp operand: decimal digits that name a timestamp. DESIGN CHOICE (log entry 14): the spec gives `T` no
digits. -/
def readNow (text : List Char) : Option (Config.TS × List Char) :=
  match dropStart ", now=".toList text with
  | some (c :: rest) =>
    if '0' ≤ c ∧ c ≤ '9' then
      (Config.timestampOf (readDigits 0 (c :: rest)).1).map (fun t => (t, (readDigits 0 (c :: rest)).2))
    else none
  | _ => none

/-- Only blanks, or blanks and a comment, are left on the line (30_encoding.md R72). -/
def atLineEnd (text : List Char) : Bool :=
  match text.dropWhile (· == ' ') with
  | [] => true
  | c :: _ => c == ';'

/-- Space-separated hex pairs to the end of the line, for `DEC.BYTES`. -/
def readPairsToEnd : List Char → Option (List Byte)
  | hi :: lo :: ' ' :: rest =>
    match readPair hi lo with
    | some b => if atLineEnd rest then some [b] else (readPairsToEnd rest).map (fun bs => b :: bs)
    | none => none
  | hi :: lo :: rest => if atLineEnd rest then (readPair hi lo).map (fun b => [b]) else none
  | _ => none

/-- A line that is a bare mnemonic. -/
def readBare (name : String) (line : AsmLine) (text : List Char) : Option AsmLine :=
  match dropStart name.toList text with
  | some rest => if atLineEnd rest then some line else none
  | none => none

/-- A line that is a mnemonic and one operand. -/
def readOne (name : String) (operand : List Char → Option (List Byte × List Char)) (line : List Byte → AsmLine)
    (text : List Char) : Option AsmLine :=
  match dropStart name.toList text with
  | some rest =>
    match operand rest with
    | some (bs, after) => if atLineEnd after then some (line bs) else none
    | none => none
  | none => none

/-- A line that is a mnemonic, one operand and a timestamp. -/
def readTimed (name : String) (operand : List Char → Option (List Byte × List Char))
    (line : List Byte → Config.TS → AsmLine) (text : List Char) : Option AsmLine :=
  match dropStart name.toList text with
  | some rest =>
    match operand rest with
    | some (bs, after) =>
      match readNow after with
      | some (t, after') => if atLineEnd after' then some (line bs t) else none
      | none => none
    | none => none
  | none => none

/-- The hex byte of `DEC.BYTE`, written `0x` and a pair. -/
def readImm8 : List Char → Option (List Byte × List Char)
  | '0' :: 'x' :: hi :: lo :: rest => (readPair hi lo).map (fun b => ([b], rest))
  | _ => none

/-- A line with its leading blanks removed. -/
def assembleTrimmed (text : List Char) : Option AsmLine :=
  if atLineEnd text then some .blank
  else
    readBare "DEC.RESET" (.command .decReset) text
    <|> readBare "Q.DEQ" (.command .qDeq) text
    <|> readBare "Q.CLR" (.command .qClr) text
    <|> readBare "BLK.RESET" (.command .blkReset) text
    <|> readOne "DEC.BYTE " readImm8 (fun bs => .command (.decByte (bs.headD 0))) text
    <|> readOne "ENC.P " readBytes (fun bs => .command (.encP bs)) text
    <|> readOne "ENC.F " readBytes (fun bs => .command (.encF bs)) text
    <|> readOne "ENC.HP " readText (fun bs => .command (.encHp bs)) text
    <|> readOne "ENC.HF " readText (fun bs => .command (.encHf bs)) text
    <|> readTimed "Q.ENQ " readBytes (fun bs t => .command (.qEnq bs t)) text
    <|> readTimed "SEND.P " readBytes (fun bs t => .pseudo (.sendP bs t)) text
    <|> readTimed "SEND.F " readBytes (fun bs t => .pseudo (.sendF bs t)) text
    <|> readTimed "SEND.HP " readText (fun bs t => .pseudo (.sendHp bs t)) text
    <|> readTimed "SEND.HF " readText (fun bs t => .pseudo (.sendHf bs t)) text
    <|> ((dropStart "DEC.BYTES ".toList text).bind readPairsToEnd).map (fun bs => .pseudo (.decBytes bs))

/-- A line of assembly (30_encoding.md R72, R73), `none` where it is none. -/
def assemble (text : List Char) : Option AsmLine := assembleTrimmed (text.dropWhile (· == ' '))

end Sys2Proof.Machine
end

