-- ==== Sys2Proof/Tests/Slice0.lean ====
section
/-! SUPPORT. Tests with expected results from 95_test_vectors.md and the rules, and a witness for the hypotheses of every statement. -/

namespace Sys2Proof.Tests

open Sys2Proof Sys2Proof.Machine

/-! Helpers: small states, and what a step's next state shows. -/

/-- A deframer state `(DSTATE, DLEN, DCNT)` with `DBUF` cells `m`, all else as after reset. -/
def deframer (d : DState) (l c : Byte) (m : List Host.Cell) : State :=
  { State.reset with dstate := d, dlen := l, dcnt := c, dbuf := m }

/-- A timestamp, where no test looks at it. -/
abbrev t0 : Config.TS := Config.someTime

/-- The state after reset with the FIFO `q`. -/
def fifo (q : List Entry) : State := { State.reset with q := q }

/-- The state after reset with the stimuli `port` presented. -/
def presented (port : List Stimulus) : State := { State.reset with port := port }

/-- The state after reset with a command of an agent presented. -/
def given (a : Agent) (w : Word) (opnd : List Byte) (now : Config.TS) : State :=
  presented [.command { agent := a, cmd := w, opnd := opnd, now := now }]

/-- What `f` shows of a next state. -/
def shows {α : Type} (f : State → α) : Host.Outcome State Fault Refusal → Option α
  | .next t => some (f t)
  | .fault _ => none
  | .refused _ => none

/-- The deframer's registers and the responses. -/
structure View where
  dstate : DState
  dlen : Byte
  dcnt : Byte
  dbuf : List Host.Cell
  responses : List Response
  deriving DecidableEq, Repr

/-- What `View` shows of a state. -/
def view (t : State) : View := ⟨t.dstate, t.dlen, t.dcnt, t.dbuf, t.responses⟩

/-- ASCII text as operand bytes. -/
def ascii (s : String) : List Byte := s.toList.map (fun c => BitVec.ofNat 8 c.toNat)

/-! Well-formedness: an ill-formed term for each check. -/

theorem test_wf_accepts : Command.wf 1 { agent := .producer 0, cmd := 0x4000, opnd := [1], now := t0 } = true := by decide
theorem test_wf_refuses_word_of_no_row : Command.wf 1 { agent := .worker, cmd := 0x11CC, opnd := [], now := t0 } = false := by
  decide
theorem test_wf_refuses_agent_that_is_not : Agent.wf 1 (.producer 1) = false := by decide

/-! Decoding words written out from 30_encoding.md R67's patterns. -/

theorem test_decode_decByte : decode 0b0001_0000_1010_0101 [] t0 = .ok (.decByte 0xA5) := by rfl
theorem test_decode_decReset : decode 0b0010_0000_0000_0000 [] t0 = .ok .decReset := by rfl
theorem test_decode_encP : decode 0b0011_0000_0000_0000 [3, 5] t0 = .ok (.encP [3, 5]) := by rfl
theorem test_decode_encF : decode 0b0011_0001_0000_0000 [3, 5] t0 = .ok (.encF [3, 5]) := by rfl
theorem test_decode_encHp : decode 0b0011_0010_0000_0000 [0x30] t0 = .ok (.encHp [0x30]) := by rfl
theorem test_decode_encHf : decode 0b0011_0011_0000_0000 [0x30] t0 = .ok (.encHf [0x30]) := by rfl
theorem test_decode_qEnq (t : Config.TS) : decode 0b0100_0000_0000_0000 [1] t = .ok (.qEnq [1] t) := by rfl
theorem test_decode_qDeq : decode 0b0101_0000_0000_0000 [] t0 = .ok .qDeq := by rfl
theorem test_decode_qClr : decode 0b0110_0000_0000_0000 [] t0 = .ok .qClr := by rfl
theorem test_decode_blkReset : decode 0b0111_0000_0000_0000 [] t0 = .ok .blkReset := by rfl

/-- 95_test_vectors.md V71, V73 to V76, V78, V79: words that are no command. -/
theorem test_illegal_words :
    [0x0000, 0x14AA, 0x2001, 0x3001, 0x3400, 0x6080, 0x7FFF, 0x8000, 0x9000, 0xF000, 0xFFFF].all
      (fun w => (decode w [] t0).toOption == none && !legalWord w) = true := by decide

theorem test_decodeTableWord : decodeTableWord 16 0x10CC = some (.decByte 0xCC) := by decide
theorem test_withFetchWord :
    shows view (step (State.reset.withFetchWord 16 0x10CC)) = some ⟨.syncMark, 0, 0, [], [.none]⟩ := by decide

/-! Commands, one step each. -/

/-- V1, the byte `4A`: the last payload byte is stored and leads to `VerifyChecksum`. -/
theorem test_decByte_last_payload_byte :
    shows view (exec (.decByte 0x4A) (deframer .reading 3 2 [(0, 0x40), (1, 0x78)]))
      = some ⟨.verifyChecksum, 3, 3, [(0, 0x40), (1, 0x78), (2, 0x4A)], [.none]⟩ := by decide
/-- V24: `03` ends the stale frame with a mismatch. -/
theorem test_decByte_mismatch :
    shows view (exec (.decByte 0x03)
        (deframer .verifyChecksum 5 5 [(0, 0x01), (1, 0x02), (2, 0xCC), (3, 0xAA), (4, 0x02)]))
      = some ⟨.desync, 0, 0, [(0, 0x01), (1, 0x02), (2, 0xCC), (3, 0xAA), (4, 0x02)], [.reject 5 0x03 0x80]⟩ := by decide
/-- V23: a partial frame is abandoned. -/
theorem test_decReset :
    shows view (exec .decReset (deframer .reading 3 1 [(0, 0x40)])) = some ⟨.desync, 0, 0, [(0, 0x40)], [.none]⟩ := by decide
/-- V31. -/
theorem test_encP : shows (·.responses) (exec (.encP [0x40, 0x78, 0x4A]) State.reset)
    = some [.data [0xCC, 0xAA, 0x03, 0x40, 0x78, 0x4A, 0xFB]] := by decide
/-- V34: 256 bytes. -/
theorem test_encP_too_long : shows (·.responses) (exec (.encP (List.replicate 256 0)) State.reset)
    = some [.error .payloadTooLong] := by decide +kernel
/-- V36: not validated. -/
theorem test_encF : shows (·.responses) (exec (.encF [0xCC, 0xAA, 2, 3, 5, 0]) State.reset)
    = some [.data [0xCC, 0xAA, 2, 3, 5, 0]] := by decide
/-- V39: lower case. -/
theorem test_encHp : shows (·.responses) (exec (.encHp (ascii "40784a")) State.reset)
    = some [.data [0xCC, 0xAA, 0x03, 0x40, 0x78, 0x4A, 0xFB]] := by decide
/-- V45: an `x`. -/
theorem test_encHp_invalid : shows (·.responses) (exec (.encHp (ascii "0x0305")) State.reset)
    = some [.error .invalidEncoding] := by decide
/-- V49. -/
theorem test_encHf : shows (·.responses) (exec (.encHf (ascii "CCAA0340784AFB")) State.reset)
    = some [.data [0xCC, 0xAA, 0x03, 0x40, 0x78, 0x4A, 0xFB]] := by decide
/-- V50: spaces. -/
theorem test_encHf_invalid : shows (·.responses) (exec (.encHf (ascii "CC AA 03 40 78 4A FB")) State.reset)
    = some [.error .invalidEncoding] := by decide
/-- V64, second enqueue: order is by enqueue, not by timestamp, whatever the two are. -/
theorem test_qEnq (t9 t3 : Config.TS) : shows (·.q) (exec (.qEnq [0x0B] t3) (fifo [⟨t9, [0x0A]⟩]))
    = some [⟨t9, [0x0A]⟩, ⟨t3, [0x0B]⟩] := by rfl
/-- V87: capacity is checked before entry size. -/
theorem test_qEnq_finite : shows (fun t => (t.q, t.fault, t.responses))
      (stepIn { qcap := some 1, qmaxb := some 2 } { given (.producer 0) 0x4000 [1, 2, 3] t0 with q := [⟨t0, [1]⟩] })
    = some ([⟨t0, [1]⟩], 1, [.faulted 1]) := by decide
/-- V64, the dequeue. -/
theorem test_qDeq (t9 t3 : Config.TS) :
    shows (fun t => (t.q, t.responses)) (exec .qDeq (fifo [⟨t9, [0x0A]⟩, ⟨t3, [0x0B]⟩]))
      = some ([⟨t3, [0x0B]⟩], [.entry t9 [0x0A]]) := by rfl
/-- V60. -/
theorem test_qDeq_empty : shows (·.responses) (exec .qDeq State.reset) = some [.empty] := by decide
/-- V63, the clear. -/
theorem test_qClr : shows (fun t => (t.q, t.responses)) (exec .qClr (fifo [⟨t0, [1]⟩])) = some ([], [.none]) := by decide
/-- V70. -/
theorem test_blkReset : shows (fun t => (t.dstate, t.dlen, t.dcnt, t.q))
      (exec .blkReset { deframer .reading 5 2 [(0, 1), (1, 2)] with q := [⟨t0, [0xCC, 0xAA, 0, 0]⟩] })
    = some (.desync, 0, 0, []) := by decide
/-- V72: an illegal word feeds no byte. -/
theorem test_illegal_word : shows view (step { given .worker 0x11CC [] t0 with dstate := .synced })
    = some ⟨.synced, 0, 0, [], [.error .illegalOp]⟩ := by decide
/-- V81: the illegal word is found before the agent check. -/
theorem test_illegal_word_of_producer : shows (fun t => (t.refusal, t.responses)) (step (given (.producer 0) 0x8000 [] t0))
    = some (false, [.error .illegalOp]) := by decide
/-- V82: a refused command performs nothing. -/
theorem test_refused_producer : shows (fun t => (t.dstate, t.refusal, t.responses)) (step (given (.producer 0) 0x10CC [] t0))
    = some (.desync, true, []) := by decide
/-- V85: a faulted block answers an illegal word with its fault. -/
theorem test_faulted_block : shows (fun t => (t.fault, t.responses)) (step { given .worker 0x8000 [] t0 with fault := 1 })
    = some (1, [.faulted 1]) := by decide
/-- 70_reset_and_hazards.md R201: power-on clears a fault. -/
theorem test_powerOn : shows (fun t => (t.fault, t.q)) (step { presented [.powerOn] with fault := 2, q := [⟨t0, []⟩] })
    = some (0, []) := by decide

/-! Checksums of V3, codes, pseudo-instructions, assembly. -/

theorem test_csum8_values : (csum8 0 [], csum8 1 [0xFF], csum8 2 [0xCC, 0xAA], csum8 3 [0x41, 0x78, 0x4A],
    csum8 255 (List.replicate 255 0x01)) = (0x00, 0x00, 0x88, 0xFA, 0x02) := by decide +kernel
theorem test_codes : (dstateCode .verifyChecksum, kindCode (.faulted 1), errorCode .illegalOp, faultCode .entryTooLong)
    = (4, 7, 3, 2) := by decide
/-- The one number that names a timestamp in every realization reads as it; text ends at the first quote. -/
theorem test_asm_now : (readNow ", now=0".toList).isSome = true ∧
    readText (printText [0x41, 0x22, 0x42]) = some ([0x41], ['B', quoteChar]) := by decide
/-- P1 lines 3 and 4, `SEND.HP "40784A", now=101`. -/
theorem test_sendHp : shows (·.q) ((Pseudo.sendHp (ascii "40784A") t0).performAlone State.reset)
    = some [⟨t0, [0xCC, 0xAA, 0x03, 0x40, 0x78, 0x4A, 0xFB]⟩] := by decide
/-- P1 line 5: an error enqueues nothing. -/
theorem test_sendHp_invalid : shows (fun t => (t.q, t.responses)) ((Pseudo.sendHp (ascii "305") t0).performAlone State.reset)
    = some ([], [.error .invalidEncoding]) := by decide
/-- P3 lines 3 and 4. -/
theorem test_reconnect : shows (fun t => (t.dstate, t.dcnt, t.q))
      (execAll reconnect { deframer .reading 5 2 [(0, 1), (1, 2)] with q := [⟨t0, [0xCC, 0xAA, 0, 0]⟩] })
    = some (.desync, 0, []) := by decide
theorem test_asm_print : printInstr (.qEnq [0xCC, 0xAA] t0) = "Q.ENQ [CC AA], now=0".toList := by decide
theorem test_asm_read : assemble "  ENC.P [03 05] ; query".toList = some (.command (.encP [3, 5])) := by decide
theorem test_asm_read_pseudo : assemble "DEC.BYTES CC AA".toList = some (.pseudo (.decBytes [0xCC, 0xAA])) := by decide

/-! Witnesses: for every statement with hypotheses, values that meet all of them together. -/

theorem witness_PowerOnResetsFromEveryState :
    ({ presented [.powerOn] with fault := 2 }).port = .powerOn :: [] := rfl

theorem witness_DesyncScansForFirstSyncByte :
    State.reset.fault = 0 ∧ State.reset.issuer = .worker ∧ State.reset.dstate = .desync := by decide

theorem witness_SyncMarkConfirmsRearmsOrFallsBack :
    let s := deframer .syncMark 0 0 []
    s.fault = 0 ∧ s.issuer = .worker ∧ s.dstate = .syncMark := by decide

theorem witness_SyncMarkConfirmsRearmsOrFallsBack_run :
    let s := presented (feed [0xCC, 0xAA])
    s.fault = 0 ∧ s.dstate = .desync ∧ s.port = feed (List.replicate (0 + 1) 0xCC ++ [0xAA]) ++ [] := by decide

theorem witness_SyncedTakesAnyByteAsLength :
    let s := deframer .synced 0 0 []
    s.fault = 0 ∧ s.issuer = .worker ∧ s.dstate = .synced := by decide

/-- The first payload byte of the longest frame. -/
theorem witness_ReadingStoresPayloadByte :
    let s := deframer .reading 255 0 []
    s.fault = 0 ∧ s.issuer = .worker ∧ s.dstate = .reading ∧ s.dcnt.toNat < s.dlen.toNat ∧ Memory.wf s.dbuf = true := by
  decide

/-- The last payload byte of the longest frame, at index 254. -/
theorem witness_ReadingStoresPayloadByte_last :
    let s := deframer .reading 255 254 [(253, 0x01)]
    s.fault = 0 ∧ s.issuer = .worker ∧ s.dstate = .reading ∧ s.dcnt.toNat < s.dlen.toNat ∧ Memory.wf s.dbuf = true := by
  decide

theorem witness_ChecksumMatchDelivers :
    let s := deframer .verifyChecksum 2 2 [(0, 0x03), (1, 0x05)]
    let p : List Byte := [0x03, 0x05]
    s.fault = 0 ∧ s.issuer = .worker ∧ s.dstate = .verifyChecksum ∧ p.length = s.dlen.toNat ∧
      ∀ k (h : k < p.length), Memory.read s.dbuf k = some p[k] := by decide

/-- The empty payload. -/
theorem witness_ChecksumMatchDelivers_empty :
    let s := deframer .verifyChecksum 0 0 []
    let p : List Byte := []
    s.fault = 0 ∧ s.issuer = .worker ∧ s.dstate = .verifyChecksum ∧ p.length = s.dlen.toNat ∧
      ∀ k (h : k < p.length), Memory.read s.dbuf k = some p[k] := by decide

theorem witness_ChecksumMismatchRejects :
    let s := deframer .verifyChecksum 2 2 [(0, 0x03), (1, 0x05)]
    let p : List Byte := [0x03, 0x05]
    s.fault = 0 ∧ s.issuer = .worker ∧ s.dstate = .verifyChecksum ∧ p.length = s.dlen.toNat ∧
      (∀ k (h : k < p.length), Memory.read s.dbuf k = some p[k]) ∧ (0xF7 : Byte) ≠ csum8 s.dlen p := by decide

theorem witness_DecResetAbandonsPartialFrame :
    let s := deframer .reading 5 2 [(0, 1), (1, 2)]
    s.fault = 0 ∧ s.issuer = .worker := by decide

theorem witness_DeliveryHasDeclaredLength :
    let s := { deframer .verifyChecksum 1 1 [(0, 0xFF)] with port := feed [0x00] }
    ∃ t, step s = .next t ∧ t.responses = s.responses ++ [.deliver [0xFF]] := ⟨_, rfl, by decide⟩

theorem witness_RoundTripDeliversThePayload :
    let s := { presented (feed [0xCC, 0xAA, 2, 3, 5, 0xF6]) with dstate := .syncMark }
    ∃ v, exec (.encP [3, 5]) State.reset = .next v ∧
      v.responses = State.reset.responses ++ [.data [0xCC, 0xAA, 2, 3, 5, 0xF6]] ∧ s.fault = 0 ∧
      (s.dstate = .desync ∨ s.dstate = .syncMark) ∧ Memory.wf s.dbuf = true ∧
      s.port = feed [0xCC, 0xAA, 2, 3, 5, 0xF6] ++ [] := ⟨_, rfl, by decide⟩

/-- V20. -/
theorem witness_FramesInNoiseAreDelivered :
    let n0 : List Byte := [0x00, 0xAA, 0x13, 0xCC]
    let n1 : List Byte := [0xAA, 0xCC, 0x55, 0xCC]
    let n2 : List Byte := [0x12, 0xCC]
    let f1 : List Byte := [0xCC, 0xAA, 2, 3, 5, 0xF6]
    let f2 : List Byte := [0xCC, 0xAA, 3, 0x40, 0x78, 0x4A, 0xFB]
    let s := presented (feed (n0 ++ f1 ++ n1 ++ f2 ++ n2))
    s.fault = 0 ∧ s.dstate = .desync ∧ Memory.wf s.dbuf = true ∧ noSyncPair n0 = true ∧ noSyncPair n1 = true ∧
      noSyncPair n2 = true ∧ validFrame f1 = true ∧ validFrame f2 = true ∧
      s.port = feed (n0 ++ f1 ++ n1 ++ f2 ++ n2) := by decide

theorem witness_SynchronisedFrameConsumesItsBytes :
    let s := { deframer .synced 0 0 [] with port := feed [1, 0x33, 0xCC] }
    s.fault = 0 ∧ s.dstate = .synced ∧ Memory.wf s.dbuf = true ∧ ([0x33] : List Byte).length = (1 : Byte).toNat ∧
      s.port = feed (1 :: ([0x33] ++ [0xCC])) ++ [] := by decide

theorem witness_DeframerRecoversWithin257Bytes :
    let s := { deframer .reading 255 0 [] with port := feed (List.replicate 257 0xCC) }
    StateInv s ∧ s.fault = 0 ∧ (s.dstate = .synced ∨ s.dstate = .reading ∨ s.dstate = .verifyChecksum) ∧
      (List.replicate 257 (0xCC : Byte)).length = 257 ∧ s.port = feed (List.replicate 257 0xCC) ++ [] :=
  ⟨by decide, rfl, .inr (.inl rfl), List.length_replicate, (List.append_nil _).symm⟩

/-- For the statements whose only hypothesis is `FAULT = 0`: `EncPFramesOrRejectsPayload`, `EncFPassesThrough`,
`EncHpDecodesThenFrames`, `EncHfDecodesAndPassesThrough`, `EnqueueAppendsEntry`, `SendPEnqueuesTheFrame`; a producer's
state. -/
theorem witness_noFault : ({ State.reset with issuer := .producer 0 }).fault = 0 := by decide

/-- For the statements whose only hypotheses are `FAULT = 0` and the worker: `DequeueReturnsOldestOrEmpty`,
`ClearDiscardsEveryEntry`, `BlkResetResetsBothUnits`. -/
theorem witness_noFault_worker : State.reset.fault = 0 ∧ State.reset.issuer = .worker := by decide

theorem witness_DequeueReturnsOldestOrEmpty :
    (fifo []).q = [] ∧ (fifo [⟨t0, [1]⟩, ⟨t0, []⟩]).q = (⟨t0, [1]⟩ : Entry) :: [⟨t0, []⟩] := by decide

theorem witness_ValidFrameConditions :
    ([0xCC, 0xAA, 0, 0] : List Byte)[2]? = some 0 ∧ ([0xCC, 0xAA, 0, 0] : List Byte).length = (0 : Byte).toNat + 4 := by
  decide

theorem witness_EncPResultIsValidFrame :
    State.reset.fault = 0 ∧ ∃ t, exec (.encP []) State.reset = .next t ∧
      t.responses = State.reset.responses ++ [.data [0xCC, 0xAA, 0, 0]] := ⟨rfl, _, rfl, by decide⟩

theorem witness_FramerReadsAndWritesNoState :
    isFramerCommand (.encHp [0x30]) = true ∧ State.reset.fault = 0 := by decide

theorem witness_ChecksumLawOfFrames : ([0x40, 0x78, 0x4A] : List Byte).length ≤ 255 ∧ 2 < ([0x40, 0x78, 0x4A] : List Byte).length := by
  decide

theorem witness_CompensatingCorruptionIsDelivered :
    let s := deframer .verifyChecksum 2 2 [(0, 0x04), (1, 0x04)]
    let p : List Byte := [0x03, 0x05]
    (0 : Nat) ≠ 1 ∧ 0 < p.length ∧ 1 < p.length ∧ s.fault = 0 ∧ s.issuer = .worker ∧ s.dstate = .verifyChecksum ∧
      p.length = s.dlen.toNat ∧
      ∀ m (_ : m < p.length), Memory.read s.dbuf m = some ((p.set 0 (0x03 + 1)).set 1 (0x05 - 1))[m]! := by decide

/-- V61's first three commands. -/
theorem witness_FifoConservesEntriesInOrder :
    let ins : List Stimulus := [.command (encode (.producer 0) (.qEnq [1] t0)), .command (encode .worker (.qEnq [2, 2] t0)),
      .command (encode .worker .qDeq)]
    (presented ins).fault = 0 ∧ (presented ins).port = ins ++ [] ∧ (∀ x ∈ ins, discardsFifo x = false) ∧
      ∃ t, runSteps ins.length (presented ins) = .next t ∧ t.q = [⟨t0, [2, 2]⟩] := ⟨rfl, rfl, by decide, _, rfl, by decide⟩

theorem witness_EachAgentsEntriesKeepTheirOrder :
    let c := encode .worker (.qEnq [1] t0)
    let s := presented [.command c]
    s.fault = 0 ∧ s.q = [] ∧ IsLinearization (fun a => if a = .worker then [c] else []) s.port ∧
      (∀ x ∈ s.port, discardsFifo x = false) ∧ ∃ t, runSteps s.port.length s = .next t := by
  refine ⟨rfl, rfl, fun a => ?_, by decide, _, rfl⟩
  by_cases h : a = .worker
  · subst h; rfl
  · simp [presented, encode, h, Ne.symm h]

theorem witness_ClearAgainstEnqueue :
    let e := Stimulus.command (encode (.producer 3) (.qEnq [1] t0))
    let c := Stimulus.command (encode .worker .qClr)
    (presented [e, c]).fault = 0 ∧ (presented [e, c]).port = e :: c :: [] ∧ (presented [c, e]).fault = 0 ∧
      (presented [c, e]).port = c :: e :: [] := by decide

theorem witness_TimestampsAreOnlyCarried :
    ∃ t, step (presented [.command (encode .worker (.qEnq [1] t0))]) = .next t ∧ t.q = [⟨t0, [1]⟩] := ⟨_, rfl, by decide⟩

theorem witness_FullFiniteFifoOverflows : (fifo [⟨t0, [1]⟩]).fault = 0 ∧ (fifo [⟨t0, [1]⟩]).q.length = 1 := by decide

theorem witness_OverlongEntryFaults :
    (fifo []).fault = 0 ∧ (∀ n, some 1 = some n → (fifo []).q.length < n) ∧ 2 < ([1, 2, 3] : List Byte).length ∧
      ¬ 2 < ([1, 2] : List Byte).length :=
  ⟨rfl, fun n h => by cases h; decide, by decide, by decide⟩

/-- A full FIFO, and one with room for one entry. -/
theorem witness_EveryStepKeepsCapacity :
    let lim : Config.Limits := { qcap := some 1, qmaxb := none }
    let c := Stimulus.command (encode (.producer 0) (.qEnq [] t0))
    let s := { presented [c] with q := [⟨t0, []⟩] }
    (withinCapacity lim s.q = true ∧ ∃ t, stepIn lim s = .next t ∧ t.fault = 1) ∧
      withinCapacity lim (presented [c]).q = true ∧ ∃ t, stepIn lim (presented [c]) = .next t ∧ t.q.length = 1 :=
  ⟨⟨by decide, _, rfl, by decide⟩, by decide, _, rfl, by decide⟩

theorem witness_IllegalWordAnswersIllegalOp :
    let c : Command := { agent := .producer 0, cmd := 0x8000, opnd := [], now := t0 }
    (presented [.command c]).fault = 0 ∧ (presented [.command c]).port = .command c :: [] ∧ legalWord c.cmd = false := by
  decide

theorem witness_FaultedBlockIsStuck :
    let c : Command := { agent := .worker, cmd := 0x7000, opnd := [], now := t0 }
    let s := { presented [.command c] with fault := 1 }
    s.fault ≠ 0 ∧ s.port = .command c :: [] ∧ ∃ t, step s = .next t := ⟨by decide, rfl, _, rfl⟩

theorem witness_RefusedCommandPerformsNothing :
    let s := { State.reset with issuer := .producer 0 }
    s.fault = 0 ∧ mayIssue s.issuer .qDeq = false ∧
      ({ s with refusal := true }).refusal = true ∧ ∃ t, step { s with refusal := true } = .next t :=
  ⟨rfl, rfl, rfl, _, rfl⟩

/-- Also for `StepRunsTheDecodedCommand`. -/
theorem witness_PriorityOfOutcomes :
    let c := encode (.producer 0) .blkReset
    (presented [.command c]).port = .command c :: [] ∧ decode c.cmd c.opnd c.now = .ok .blkReset := ⟨rfl, rfl⟩

theorem witness_OneResponsePerCommand :
    (∃ t, exec .qDeq State.reset = .next t) ∧ ∃ t, exec .qDeq { State.reset with issuer := .producer 0 } = .next t :=
  ⟨⟨_, rfl⟩, ⟨_, rfl⟩⟩

theorem witness_NoStepSetsFault : State.reset.fault = 0 ∧ ∃ t, step (given .worker 0x4000 [1] t0) = .next t := ⟨rfl, _, rfl⟩

theorem witness_OnlyPowerOnClearsFault :
    let s := { presented [.powerOn] with fault := 1 }
    s.fault ≠ 0 ∧ ∃ t, step s = .next t := ⟨by decide, _, rfl⟩

theorem witness_UnitsShareNoState :
    isDeframerCommand .decReset = true ∧ isFifoCommand .qClr = true ∧ isFramerCommand (.encF []) = true ∧
      (∃ t, exec .decReset State.reset = .next t) ∧ (∃ t, exec .qClr State.reset = .next t) ∧
      ∃ t, exec (.encF []) State.reset = .next t := ⟨rfl, rfl, rfl, ⟨_, rfl⟩, ⟨_, rfl⟩, ⟨_, rfl⟩⟩

/-- `DEC.BYTE` in `Reading` stores at index 1; index 0 is in the frame. -/
theorem witness_CommandFrame :
    let s := deframer .reading 2 1 [(0, 0x03)]
    Memory.wf s.dbuf = true ∧ (∃ t, exec (.decByte 5) s = .next t) ∧ 0 ≠ s.dcnt.toNat ∧ mayIssue s.issuer (.decByte 5) = true :=
  ⟨by decide, ⟨_, rfl⟩, by decide, rfl⟩

theorem witness_StateIsKeptBetweenCommands : State.reset.port = [] := rfl

/-- Also for `StepAlwaysAnswers`. -/
theorem witness_StepKeepsInvariant :
    let s := { deframer .reading 255 254 [(0, 0x01)] with port := feed [0x02] }
    StateInv s ∧ ∃ t, step s = .next t ∧ t.dstate = .verifyChecksum := ⟨by decide, _, rfl, by decide⟩

theorem witness_OnlyByteBeyondBufferStops :
    let s := deframer .reading 255 255 []
    s.fault = 0 ∧ s.issuer = .worker ∧ s.dstate = .reading ∧ s.dcnt = 255 ∧
      exec (.decByte 0) s = .fault .dbufIndexOutOfRange := ⟨rfl, rfl, rfl, rfl, rfl⟩

/-- The two buffers differ at index 1, beyond `DCNT = 1`. -/
theorem witness_StaleBytesAreNeverRead :
    let s := { deframer .reading 3 1 [(0, 0x03)] with port := feed [0x05] }
    let t := { s with dbuf := [(0, 0x03), (1, 0x77)] }
    StateInv s ∧ Memory.wf t.dbuf = true ∧ SameButStale s t ∧ ∃ s', step s = .next s' :=
  ⟨by decide, by decide, ⟨rfl, by decide⟩, _, rfl⟩

theorem witness_EncodeOfDecode : decode 0x4000 [1] t0 = .ok (.qEnq [1] t0) ∧ isFramerCommand (.encP [1]) = true ∧
    decode 0x3000 [1] t0 = .ok (.encP [1]) := ⟨rfl, rfl, rfl⟩

theorem witness_DecodeFollowsOpcodeMap : (0x10FF : Word) &&& 0xFF00 = 0x1000 ∧ legalWord 0x1100 = false := by decide

end Sys2Proof.Tests
end

section
/-! PROOFS. The checksum as a negated byte sum (00_scope.md R12), and the units' separate state (00_scope.md R2;
20_memory.md R47). -/

namespace Sys2Proof.Machine

/-- Bytes added up as bytes give the natural-number sum truncated to one byte (00_scope.md R10, R12). -/
theorem toNat_foldl_add (p : List Byte) (a : Byte) :
    (p.foldl (fun a b => a + b) a).toNat = (a.toNat + byteSum p) % 256 := by
  induction p generalizing a with
  | nil => simp [Nat.mod_eq_of_lt a.isLt]
  | cons b p ih =>
    rw [List.foldl_cons, ih, BitVec.toNat_add, byteSum_cons]
    omega

/-- The checksum is the two's-complement negation of the sum of its bytes (00_scope.md R12). -/
theorem csum8_eq_neg (n : Byte) (p : List Byte) : csum8 n p = -(n + p.foldl (fun a b => a + b) 0) := by
  apply BitVec.eq_of_toNat_eq
  have hsum : (p.foldl (fun a b => a + b) (0 : Byte)).toNat = byteSum p % 256 := by simp [toNat_foldl_add]
  rw [csum8_toNat, BitVec.toNat_neg, BitVec.toNat_add, hsum]
  omega

/-- Settles O15: the formula is `csum8_toNat`, the negation is `csum8_eq_neg`. -/
theorem checksumIsNegatedSum : Obligations.ChecksumIsNegatedSum := fun n p => ⟨csum8_toNat n p, csum8_eq_neg n p⟩

/-- The state that belongs to the deframer (20_memory.md R47). -/
def State.deframerPart (s : State) : DState × Byte × Byte × List Host.Cell := (s.dstate, s.dlen, s.dcnt, s.dbuf)

theorem State.deframerPart_eq_iff {s t : State} :
    t.deframerPart = s.deframerPart ↔ t.dstate = s.dstate ∧ t.dlen = s.dlen ∧ t.dcnt = s.dcnt ∧ t.dbuf = s.dbuf := by
  simp [State.deframerPart]

/-- What neither a response nor the refusal mark touches, a command changes only by its own rule
(60_exceptions.md R178). -/
theorem exec_keeps {α : Type} {f : State → α} (hrespond : ∀ s r, f (s.respond r) = f s)
    (hrefused : ∀ s, f s.markRefused = f s) {i : Instr} {s t : State}
    (hrule : ruleOf i s = .next t → f t = f s) (h : exec i s = .next t) : f t = f s := by
  obtain ⟨_, rfl⟩ | ⟨_, _, h⟩ | ⟨_, _, rfl⟩ := exec_cases h
  · exact hrespond s _
  · exact hrule h
  · exact hrefused s

/-- A framer command's rule gives its response and writes nothing else (41_framer.md R126). -/
theorem ruleOf_framer {i : Instr} (hi : isFramerCommand i = true) {s t : State} (h : ruleOf i s = .next t) :
    ∃ r, t = s.respond r := by
  have result (x : Except ErrorKind (List Byte)) : ∃ r, s.respondResult x = s.respond r :=
    (respondResult_cases s x).imp fun _ => And.left
  cases i with
  | encP p => cases h; exact result _
  | encF f => cases h; exact ⟨_, rfl⟩
  | encHp x => cases h; exact result _
  | encHf x => cases h; exact result _
  | _ => cases hi

/-- A FIFO command's rule replaces the FIFO and gives its response (42_fifo.md R140, R142, R144). -/
theorem ruleOf_fifo {i : Instr} (hi : isFifoCommand i = true) {s t : State} (h : ruleOf i s = .next t) :
    ∃ es r, t = (s.withFifo es).respond r := by
  cases i with
  | qEnq bytes now => cases h; exact ⟨_, _, rfl⟩
  | qDeq =>
    cases h
    obtain ⟨_, hd⟩ | ⟨_, _, _, hd⟩ := dequeue_cases s <;> exact ⟨_, _, hd⟩
  | qClr => cases h; exact ⟨_, _, rfl⟩
  | _ => cases hi

/-- A deframer command's rule leaves the FIFO alone (00_scope.md R2). -/
theorem ruleOf_deframer_q {i : Instr} (hi : isDeframerCommand i = true) {s t : State} (h : ruleOf i s = .next t) :
    t.q = s.q := by
  cases i with
  | decByte b =>
    obtain ⟨_, rfl⟩ | ⟨_, rfl⟩ | ⟨_, rfl⟩ | ⟨_, _, _, rfl⟩ | ⟨_, rfl⟩ := feedByte_cases h <;> rfl
  | decReset => cases h; rfl
  | _ => cases hi

/-- No deframer or framer command changes the FIFO. -/
theorem exec_keeps_q {i : Instr} (hi : isDeframerCommand i = true ∨ isFramerCommand i = true) {s t : State}
    (h : exec i s = .next t) : t.q = s.q := by
  refine exec_keeps (f := State.q) State.respond_q State.markRefused_q (fun hr => ?_) h
  cases hi with
  | inl hi => exact ruleOf_deframer_q hi hr
  | inr hi => obtain ⟨r, rfl⟩ := ruleOf_framer hi hr; rfl

/-- No FIFO or framer command changes the deframer. -/
theorem exec_keeps_deframerPart {i : Instr} (hi : isFifoCommand i = true ∨ isFramerCommand i = true) {s t : State}
    (h : exec i s = .next t) : t.deframerPart = s.deframerPart := by
  refine exec_keeps (f := State.deframerPart) (fun _ _ => rfl) (fun _ => rfl) (fun hr => ?_) h
  cases hi with
  | inl hi => obtain ⟨es, r, rfl⟩ := ruleOf_fifo hi hr; rfl
  | inr hi => obtain ⟨r, rfl⟩ := ruleOf_framer hi hr; rfl

/-- Settles O45: one command either answers a fault, is refused, or runs a rule of its own unit. -/
theorem unitsShareNoState : Obligations.UnitsShareNoState := fun _ _ _ h =>
  ⟨fun hi => exec_keeps_q hi h, fun hi => State.deframerPart_eq_iff.mp (exec_keeps_deframerPart hi h)⟩

end Sys2Proof.Machine
end

section
/-! PROOFS. The state invariant (10_state.md R31): reset meets it, every step keeps it and answers, every reachable
state has it. With it: the FIFO's capacity, `FAULT` and the one response of a command (10_state.md R26 to R29). -/

namespace Sys2Proof.Machine

/-- Settles O1: the reset state is given by its fields. -/
theorem powerOnResetValues : Obligations.PowerOnResetValues := ⟨rfl, rfl, rfl, rfl, rfl⟩

/-- Settles O39: the table of rights, row by row. -/
theorem agentRights : Obligations.AgentRights := by
  refine ⟨fun i => ?_, fun n i => ?_⟩
  · cases i <;> rfl
  · cases i <;> simp [mayIssue]

/-! What every step keeps. -/

/-- `P` speaks of the block's own state elements only (10_state.md R20), so that it does not see the port, the refusal
mark, the issuer and the responses. -/
def OfBlockState (P : State → Prop) : Prop :=
  ∀ (s : State) (port : List Stimulus) (refusal : Bool) (issuer : Agent) (responses : List Response), P s →
    P { s with port := port, refusal := refusal, issuer := issuer, responses := responses }

section

variable {P : State → Prop} {lim : Config.Limits} {i : Instr} {s t : State}

/-- What the command's own rule keeps, the command keeps (60_exceptions.md R178). -/
theorem execIn_keeps (hP : OfBlockState P) (hrule : ruleIn lim i s = .next t → P t) (hs : P s)
    (h : execIn lim i s = .next t) : P t := by
  obtain ⟨_, rfl⟩ | ⟨_, _, h⟩ | ⟨_, _, rfl⟩ := execIn_cases h
  · exact hP s _ _ _ _ hs
  · exact hrule h
  · exact hP s _ _ _ _ hs

/-- What holds at reset and every command's rule keeps, every step keeps. -/
theorem stepIn_keeps (hP : OfBlockState P) (hreset : P State.reset)
    (hrule : ∀ i s t, P s → ruleIn lim i s = .next t → P t) (hs : P s) (h : stepIn lim s = .next t) : P t := by
  obtain ⟨_, hstep⟩ | ⟨_, _, hstep⟩ | ⟨c, rest, i, _, _, hstep⟩ | ⟨c, rest, _, _, _, hstep⟩ :=
    stepBy_cases (execIn lim) s <;> rw [stepIn, hstep] at h
  · cases h; exact hs
  · cases h; exact hP _ _ _ _ _ hreset
  · have hs' : P (({ s with port := rest }).issuedBy c.agent) := hP s _ _ _ _ hs
    exact execIn_keeps hP (hrule i _ t hs') hs' h
  · rw [execIllegal_eq] at h
    cases h
    split <;> exact hP s _ _ _ _ hs

end

@[simp] theorem ruleIn_limits (i : Instr) (s : State) : ruleIn Config.limits i s = ruleOf i s := by cases i <;> rfl

/-- What holds at reset and every command's rule keeps, every step of this hardware keeps. -/
theorem step_keeps {P : State → Prop} (hP : OfBlockState P) (hreset : P State.reset)
    (hrule : ∀ i s t, P s → ruleOf i s = .next t → P t) {s t : State} (hs : P s) (h : step s = .next t) : P t :=
  stepIn_keeps hP hreset (fun i s t hs h => hrule i s t hs (ruleIn_limits i s ▸ h)) hs (stepIn_limits s ▸ h)

/-! The invariant. -/

theorem stateInv_ofBlockState : OfBlockState StateInv := fun _ _ _ _ _ h => h

/-- The invariant speaks of the deframer alone: this hardware's FIFO has no capacity to exceed (00_scope.md R8). -/
theorem StateInv.of_deframerPart {s t : State} (h : t.deframerPart = s.deframerPart) (hs : StateInv s) :
    StateInv t := by
  obtain ⟨hd, hl, hc, hm⟩ := State.deframerPart_eq_iff.mp h
  obtain ⟨hdef, _, hwf⟩ := hs
  exact ⟨by rwa [DeframerInv, hd, hl, hc], rfl, hm ▸ hwf⟩

theorem deframerInv_of_idle {s : State} (hd : s.dstate = .desync ∨ s.dstate = .syncMark ∨ s.dstate = .synced)
    (h : s.dcnt = 0 ∧ s.dlen = 0) : DeframerInv s := by
  refine ⟨fun _ => h, fun hr => ?_, fun hv => ?_⟩
  · simp [hr] at hd
  · simp [hv] at hd

theorem deframerInv_of_reading {s : State} (hd : s.dstate = .reading) (h : s.dcnt.toNat < s.dlen.toNat) :
    DeframerInv s := by
  simp only [DeframerInv, hd]
  exact ⟨by simp, fun _ => by omega, by simp⟩

theorem deframerInv_of_verifyChecksum {s : State} (hd : s.dstate = .verifyChecksum) (h : s.dcnt = s.dlen) :
    DeframerInv s := by
  simp [DeframerInv, hd, h]

/-- Abandoning a frame gives a sound state whatever `DLEN` and `DCNT` were (40_deframer.md R100). -/
theorem stateInv_clearDeframer {s : State} (hwf : Memory.wf s.dbuf = true) : StateInv s.clearDeframer :=
  ⟨deframerInv_of_idle (.inl rfl) ⟨rfl, rfl⟩, rfl, hwf⟩

/-- Counting one byte more does not wrap below index 255. -/
theorem toNat_add_one_of_lt {c : Byte} (h : c.toNat < 255) : (c + 1).toNat = c.toNat + 1 := by
  rw [BitVec.toNat_add]
  exact Nat.mod_eq_of_lt (Nat.succ_lt_succ h)

/-- A stored byte leaves a sound state: either `DCNT` reached `DLEN`, or it is still below (40_deframer.md R95). -/
theorem stateInv_byteInReading {s : State} {m : List Host.Cell} (hlt : s.dcnt.toNat < s.dlen.toNat)
    (hwf : Memory.wf m = true) : StateInv (byteInReading m s) := by
  have hlen := s.dlen.isLt
  have hcnt : (s.dcnt + 1).toNat = s.dcnt.toNat + 1 := toNat_add_one_of_lt (by omega)
  refine ⟨?_, rfl, hwf⟩
  by_cases hlast : s.dcnt + 1 = s.dlen
  · exact deframerInv_of_verifyChecksum (if_pos hlast) hlast
  · have hne : s.dcnt.toNat + 1 ≠ s.dlen.toNat := fun he => hlast (BitVec.eq_of_toNat_eq (hcnt.trans he))
    refine deframerInv_of_reading (if_neg hlast) ?_
    rw [byteInReading_dcnt, byteInReading_dlen, hcnt]
    omega

/-- Each row of the deframer's table keeps the invariant (40_deframer.md R90). -/
theorem feedByte_keeps_stateInv {b : Byte} {s t : State} (hs : StateInv s) (h : feedByte b s = .next t) :
    StateInv t := by
  obtain ⟨⟨hidle, hreading, _⟩, _, hwf⟩ := hs
  obtain ⟨hd, rfl⟩ | ⟨hd, rfl⟩ | ⟨_, rfl⟩ | ⟨hd, m, hm, rfl⟩ | ⟨_, rfl⟩ := feedByte_cases h <;>
    refine stateInv_ofBlockState _ _ _ _ _ ?_
  · refine ⟨deframerInv_of_idle ?_ (hidle (.inl hd)), rfl, hwf⟩
    rw [byteInDesync_dstate]
    split <;> simp
  · refine ⟨deframerInv_of_idle ?_ (hidle (.inr (.inl hd))), rfl, hwf⟩
    rw [byteInSyncMark_dstate]
    split_ifs <;> simp
  · refine ⟨?_, rfl, hwf⟩
    by_cases hb : b = 0
    · exact deframerInv_of_verifyChecksum (if_pos hb) hb.symm
    · have hpos : b.toNat ≠ 0 := fun h0 => hb (BitVec.eq_of_toNat_eq h0)
      exact deframerInv_of_reading (if_neg hb) (Nat.pos_of_ne_zero hpos)
  · exact stateInv_byteInReading (hreading hd).2 (Memory.wf_write hwf hm)
  · exact stateInv_clearDeframer hwf

/-- A command's rule feeds a byte, abandons the frame, or leaves the deframer alone. -/
theorem ruleOf_keeps_stateInv (i : Instr) (s t : State) (hs : StateInv s) (h : ruleOf i s = .next t) : StateInv t := by
  have framer (hi : isFramerCommand i = true) : StateInv t := by
    obtain ⟨r, rfl⟩ := ruleOf_framer hi h
    exact hs
  have fifo (hi : isFifoCommand i = true) : StateInv t := by
    obtain ⟨es, r, rfl⟩ := ruleOf_fifo hi h
    exact hs.of_deframerPart rfl
  have hwf : Memory.wf s.dbuf = true := hs.2.2
  cases i with
  | decByte b => exact feedByte_keeps_stateInv hs h
  | decReset => cases h; exact stateInv_clearDeframer hwf
  | blkReset => cases h; exact stateInv_clearDeframer hwf
  | encP _ => exact framer rfl
  | encF _ => exact framer rfl
  | encHp _ => exact framer rfl
  | encHf _ => exact framer rfl
  | qEnq _ _ => exact fifo rfl
  | qDeq => exact fifo rfl
  | qClr => exact fifo rfl

/-- Settles O49: at reset no frame is begun, and `DBUF` is blank (10_state.md R30). -/
theorem resetMeetsInvariant : Obligations.ResetMeetsInvariant :=
  stateInv_clearDeframer (s := State.reset) Memory.reset_wf

/-- Settles O50: reset meets the invariant and every command's rule keeps it. -/
theorem stepKeepsInvariant : Obligations.StepKeepsInvariant := fun _ _ =>
  step_keeps stateInv_ofBlockState resetMeetsInvariant ruleOf_keeps_stateInv

/-! The one stop. -/

/-- A byte is not taken exactly where `DBUF` has no room for it (log entry 7). -/
theorem feedByte_stops_iff {b : Byte} {s : State} :
    (∀ t, feedByte b s ≠ .next t) ↔ s.dstate = .reading ∧ s.dcnt = 255 := by
  constructor
  · intro h
    have hstop : ¬ (s.dstate = .reading → s.dcnt.toNat < 255) := fun hc =>
      let ⟨t, ht⟩ := feedByte_next hc
      h t ht
    obtain ⟨hd, hc⟩ := Classical.not_imp.mp hstop
    have := s.dcnt.isLt
    exact ⟨hd, BitVec.eq_of_toNat_eq (show s.dcnt.toNat = 255 by omega)⟩
  · rintro ⟨hd, hc⟩ t h
    simp [feedByte, hd, hc, Memory.write_none] at h

/-- Of all rules only the deframer's can stop. -/
theorem ruleOf_stops_iff {i : Instr} {s : State} :
    (∀ t, ruleOf i s ≠ .next t) ↔ (∃ b, i = .decByte b) ∧ s.dstate = .reading ∧ s.dcnt = 255 := by
  cases i with
  | decByte b => exact (show (∀ t, feedByte b s ≠ .next t) ↔ _ from feedByte_stops_iff).trans (by simp)
  | _ => simp [ruleOf]

/-- Settles O52: a fault is answered and a refused command marked, so a stop is a stop of the command's own rule. -/
theorem onlyByteBeyondBufferStops : Obligations.OnlyByteBeyondBufferStops := by
  intro i s
  rw [exec_eq_performed]
  by_cases hf : s.fault = 0
  · cases ha : mayIssue s.issuer i with
    | true =>
      rw [performed_of_allowed hf ha, ruleOf_stops_iff]
      refine and_congr_right fun ⟨b, hb⟩ => ?_
      have hworker : s.issuer = .worker := by
        cases hi : s.issuer with
        | worker => rfl
        | producer n => simp [hb, hi, mayIssue] at ha
      simp [hf, hworker]
    | false =>
      rw [performed_of_refused hf ha]
      refine iff_of_false (fun h => h _ rfl) ?_
      rintro ⟨⟨b, rfl⟩, _, hworker, _⟩
      simp [hworker, mayIssue] at ha
  · rw [performed_of_fault hf]
    exact iff_of_false (fun h => h _ rfl) fun ⟨_, h0, _⟩ => hf h0

/-- In a sound state no command stops the machine: in `Reading`, `DCNT < DLEN <= 255`. -/
theorem exec_answers {s : State} (hs : StateInv s) (i : Instr) : ∃ t, exec i s = .next t := by
  by_contra hstop
  obtain ⟨_, _, _, hd, hc⟩ := (onlyByteBeyondBufferStops i s).mp (not_exists.mp hstop)
  obtain ⟨⟨_, hreading, _⟩, _, _⟩ := hs
  obtain ⟨_, hlt⟩ := hreading hd
  have hcnt : s.dcnt.toNat = 255 := congrArg BitVec.toNat hc
  have hlen := s.dlen.isLt
  omega

/-- Settles O51: every kind of step answers, a command's by `exec_answers`. -/
theorem stepAlwaysAnswers : Obligations.StepAlwaysAnswers := by
  intro s hs
  obtain ⟨_, h⟩ | ⟨_, _, h⟩ | ⟨c, rest, i, _, _, h⟩ | ⟨c, rest, _, _, _, h⟩ := step_cases s
  · exact ⟨_, h⟩
  · exact ⟨_, h⟩
  · rw [h]
    exact exec_answers (stateInv_ofBlockState s _ _ _ _ hs) i
  · rw [h, execIllegal_eq]
    exact ⟨_, rfl⟩

/-! Runs. -/

/-- With unbounded limits no step sets `FAULT` (60_exceptions.md R175). -/
theorem step_keeps_fault_zero {s t : State} (hf : s.fault = 0) (h : step s = .next t) : t.fault = 0 := by
  refine step_keeps (P := fun u => u.fault = 0) (fun _ _ _ _ _ h => h) rfl (fun i s t hf h => ?_) hf h
  obtain ⟨_, _, _, _, hfault, _⟩ := ruleOf_frame h
  exact hfault.trans hf

/-- A run from a sound state with no fault answers, and ends in such a state. -/
theorem runSteps_of_stateInv {k : Nat} {s : State} (hs : StateInv s) (hf : s.fault = 0) :
    ∃ t, runSteps k s = .next t ∧ StateInv t ∧ t.fault = 0 := by
  induction k generalizing s with
  | zero => exact ⟨s, rfl, hs, hf⟩
  | succ k ih =>
    obtain ⟨u, hu⟩ := stepAlwaysAnswers s hs
    rw [runSteps_succ_of_next hu]
    exact ih (stepKeepsInvariant s u hs hu) (step_keeps_fault_zero hf hu)

/-- Settles O53: a run from reset, whatever is presented. -/
theorem reachableStatesMeetInvariant : Obligations.ReachableStatesMeetInvariant := fun _ _ =>
  runSteps_of_stateInv resetMeetsInvariant rfl

/-! Capacity, responses and `FAULT`. -/

/-- A FIFO no longer than one within its capacity is within it. -/
theorem withinCapacity_of_length_le {lim : Config.Limits} {q r : List Entry} (h : r.length ≤ q.length)
    (hq : withinCapacity lim q = true) : withinCapacity lim r = true := by
  unfold withinCapacity at *
  split at hq
  · simp only [decide_eq_true_eq] at hq ⊢
    exact h.trans hq
  · rfl

/-- There is room for one entry more in a FIFO within its capacity that is not full. -/
theorem withinCapacity_append {lim : Config.Limits} {q : List Entry} (e : Entry) (hfull : fifoFull lim q = false)
    (hq : withinCapacity lim q = true) : withinCapacity lim (q ++ [e]) = true := by
  cases hcap : lim.qcap with
  | none => simp [withinCapacity, hcap]
  | some cap =>
    simp only [withinCapacity, fifoFull, hcap, decide_eq_true_eq, decide_eq_false_iff_not, List.length_append,
      List.length_singleton] at *
    omega

/-- A rule other than an enqueue's does not lengthen the FIFO (42_fifo.md R142, R144). -/
theorem ruleOf_length_le {i : Instr} (hi : ∀ bytes now, i ≠ .qEnq bytes now) {s t : State}
    (h : ruleOf i s = .next t) : t.q.length ≤ s.q.length := by
  have deframer (hd : isDeframerCommand i = true) : t.q.length ≤ s.q.length := by rw [ruleOf_deframer_q hd h]
  have framer (hf : isFramerCommand i = true) : t.q.length ≤ s.q.length := by
    obtain ⟨r, rfl⟩ := ruleOf_framer hf h
    exact le_rfl
  cases i with
  | decByte _ => exact deframer rfl
  | decReset => exact deframer rfl
  | encP _ => exact framer rfl
  | encF _ => exact framer rfl
  | encHp _ => exact framer rfl
  | encHf _ => exact framer rfl
  | qEnq bytes now => exact absurd rfl (hi bytes now)
  | qDeq =>
    cases h
    obtain ⟨_, hd⟩ | ⟨e, rest, hq, hd⟩ := dequeue_cases s <;> rw [hd]
    · exact le_rfl
    · simp [hq]
  | qClr => cases h; exact Nat.zero_le _
  | blkReset => cases h; exact Nat.zero_le _

/-- Only an enqueue's rule depends on the limits (42_fifo.md R140). -/
theorem ruleIn_eq_ruleOf {lim : Config.Limits} {i : Instr} (hi : ∀ bytes now, i ≠ .qEnq bytes now) (s : State) :
    ruleIn lim i s = ruleOf i s := by
  cases i with
  | qEnq bytes now => exact absurd rfl (hi bytes now)
  | _ => rfl

/-- Under every limit a rule keeps `len(Q) <= QCAP` (42_fifo.md R148). -/
theorem ruleIn_keeps_capacity {lim : Config.Limits} (i : Instr) (s t : State) (hq : withinCapacity lim s.q = true)
    (h : ruleIn lim i s = .next t) : withinCapacity lim t.q = true := by
  by_cases hi : ∀ bytes now, i ≠ .qEnq bytes now
  · rw [ruleIn_eq_ruleOf hi] at h
    exact withinCapacity_of_length_le (ruleOf_length_le hi h) hq
  · push Not at hi
    obtain ⟨bytes, now, rfl⟩ := hi
    cases h
    obtain ⟨_, he⟩ | ⟨_, _, he⟩ | ⟨hfull, _, he⟩ := enqueue_cases lim bytes now s <;> rw [he]
    · exact hq
    · exact hq
    · exact withinCapacity_append _ hfull hq

/-- Settles O35: the empty FIFO is within every capacity, and every rule stays within it. -/
theorem everyStepKeepsCapacity : Obligations.EveryStepKeepsCapacity := fun lim _ _ =>
  stepIn_keeps (P := fun u => withinCapacity lim u.q = true) (fun _ _ _ _ _ h => h)
    (withinCapacity_of_length_le (q := []) le_rfl (by unfold withinCapacity; split <;> simp))
    ruleIn_keeps_capacity

/-- Settles O42: a fault's answer is one response, a rule gives one by `ruleOf_frame`, a refusal none. -/
theorem oneResponsePerCommand : Obligations.OneResponsePerCommand := by
  intro i s t h
  obtain ⟨hf, rfl⟩ | ⟨_, ha, hr⟩ | ⟨hf, ha, rfl⟩ := exec_cases h
  · rw [if_neg fun hc => hf hc.1]
    exact ⟨_, rfl⟩
  · rw [if_neg fun hc => by simp [ha] at hc]
    obtain ⟨r, hresp, _⟩ := ruleOf_frame hr
    exact ⟨r, hresp⟩
  · rw [if_pos ⟨hf, ha⟩]
    rfl

/-- A `FAULT` that is set outlives every step but a power-on reset's (10_state.md R27). -/
theorem stepIn_keeps_fault {lim : Config.Limits} {s t : State} (hf : s.fault ≠ 0) (h : stepIn lim s = .next t) :
    t.fault = s.fault ∨ ∃ rest, s.port = .powerOn :: rest := by
  obtain ⟨_, hstep⟩ | ⟨rest, hp, _⟩ | ⟨c, rest, _, _, _, hstep⟩ | ⟨c, rest, _, _, _, hstep⟩ :=
    stepBy_cases (execIn lim) s
  · rw [stepIn, hstep] at h
    cases h
    exact .inl rfl
  · exact .inr ⟨rest, hp⟩
  · have hf' : (({ s with port := rest }).issuedBy c.agent).fault ≠ 0 := hf
    rw [stepIn, hstep, execIn_eq_performed, performed_of_fault hf'] at h
    cases h
    exact .inl rfl
  · have hf' : (({ s with port := rest }).issuedBy c.agent).fault ≠ 0 := hf
    rw [stepIn, hstep, execIllegal, performed_of_fault hf'] at h
    cases h
    exact .inl rfl

/-- Settles O44: this hardware is the realization with unbounded limits. -/
theorem onlyPowerOnClearsFault : Obligations.OnlyPowerOnClearsFault := by
  rintro lim s t hf (h | h)
  · exact stepIn_keeps_fault hf ((stepIn_limits s).trans h)
  · exact stepIn_keeps_fault hf h

end Sys2Proof.Machine
end

section
/-! PROOFS. The bytes of `DBUF` at indices `DCNT` and above are never read (10_state.md R25): a lock-step simulation
between two states that differ only there. -/

namespace Sys2Proof.Machine

section

variable {s t : State} (h : SameButStale s t)

include h

theorem SameButStale.dstate_eq : t.dstate = s.dstate := by rw [h.1]

theorem SameButStale.dlen_eq : t.dlen = s.dlen := by rw [h.1]

theorem SameButStale.dcnt_eq : t.dcnt = s.dcnt := by rw [h.1]

theorem SameButStale.fault_eq : t.fault = s.fault := by rw [h.1]

theorem SameButStale.port_eq : t.port = s.port := by rw [h.1]

theorem SameButStale.issuer_eq : t.issuer = s.issuer := by rw [h.1]

end

/-- What neither reads nor writes `DBUF` and does not raise `DCNT` keeps two states equal but for stale bytes. -/
theorem SameButStale.map {s t : State} (h : SameButStale s t) (f : State → State)
    (hf : ∀ m, f { s with dbuf := m } = { f s with dbuf := m }) (hcnt : (f s).dcnt.toNat ≤ s.dcnt.toNat) :
    SameButStale (f s) (f t) := by
  obtain ⟨ht, hread⟩ := h
  have hft : f t = { f s with dbuf := t.dbuf } := by rw [← hf, ← ht]
  have hbuf : (f s).dbuf = s.dbuf := (congrArg State.dbuf (hf s.dbuf) :)
  have htbuf : (f t).dbuf = t.dbuf := (congrArg State.dbuf hft :)
  exact ⟨htbuf.symm ▸ hft, fun k hk => by rw [htbuf, hbuf, hread k (hk.trans_le hcnt)]⟩

/-- Storing the same byte at `DCNT` makes it agree too (40_deframer.md R95). -/
theorem SameButStale.byteInReading {s t : State} (h : SameButStale s t) {b : Byte} {m m' : List Host.Cell}
    (hs : Memory.wf s.dbuf = true) (ht : Memory.wf t.dbuf = true)
    (hm : Memory.write s.dbuf s.dcnt.toNat b = some m) (hm' : Memory.write t.dbuf s.dcnt.toNat b = some m') :
    SameButStale (byteInReading m s) (byteInReading m' t) := by
  obtain ⟨heq, hread⟩ := h
  refine ⟨by rw [heq]; rfl, fun k hk => ?_⟩
  have hlt : s.dcnt.toNat < 255 := (Memory.write_spec hs hm).1
  rw [byteInReading_dcnt, toNat_add_one_of_lt hlt] at hk
  rw [byteInReading_dbuf, byteInReading_dbuf, Memory.read_write ht hm', Memory.read_write hs hm]
  by_cases hk' : k = s.dcnt.toNat
  · rw [if_pos hk', if_pos hk']
  · rw [if_neg hk', if_neg hk', hread k (by omega)]

/-- The verdict reads `DBUF[0..DLEN)`, all of it below `DCNT` in `VerifyChecksum` (40_deframer.md R96). -/
theorem SameButStale.verdict_eq {s t : State} (h : SameButStale s t) (hcnt : s.dcnt = s.dlen) (b : Byte) :
    verdict b t = verdict b s := by
  have hbytes : Memory.prefixBytes t.dbuf s.dlen.toNat = Memory.prefixBytes s.dbuf s.dlen.toNat := by
    refine Memory.prefixBytes_congr fun k hk => ?_
    have hk255 : k < 255 := by have := s.dlen.isLt; omega
    have hagree := h.2 k (hcnt ▸ hk)
    rwa [Memory.read_of_lt _ hk255, Memory.read_of_lt _ hk255, Option.some.injEq] at hagree
  rw [verdict, verdict, h.dlen_eq, hbytes]

/-- Each row of the deframer's table reads no stale byte (40_deframer.md R90). -/
theorem SameButStale.feedByte_matched {s t s' : State} (h : SameButStale s t) (hs : StateInv s)
    (ht : Memory.wf t.dbuf = true) {b : Byte} (hstep : feedByte b s = .next s') :
    ∃ t', feedByte b t = .next t' ∧ SameButStale s' t' := by
  have hd : t.dstate = s.dstate := h.dstate_eq
  have hc : t.dcnt = s.dcnt := h.dcnt_eq
  obtain ⟨⟨_, _, hverify⟩, _, hwf⟩ := hs
  obtain ⟨hds, rfl⟩ | ⟨hds, rfl⟩ | ⟨hds, rfl⟩ | ⟨hds, m, hm, rfl⟩ | ⟨hds, rfl⟩ := feedByte_cases hstep <;>
    rw [hds] at hd
  · exact ⟨_, feedByte_desync hd, h.map (fun u => (byteInDesync b u).respond .none) (fun _ => rfl) le_rfl⟩
  · exact ⟨_, feedByte_syncMark hd, h.map (fun u => (byteInSyncMark b u).respond .none) (fun _ => rfl) le_rfl⟩
  · exact ⟨_, feedByte_synced hd, h.map (fun u => (byteInSynced b u).respond .none) (fun _ => rfl) (Nat.zero_le _)⟩
  · have hlt : s.dcnt.toNat < 255 := (Memory.write_spec hwf hm).1
    have hm' := Memory.write_some (m := t.dbuf) b hlt
    refine ⟨_, feedByte_reading hd (hc ▸ hlt), ?_⟩
    rw [hc]
    exact (h.byteInReading hwf ht hm hm').map (fun u => u.respond .none) (fun _ => rfl) le_rfl
  · refine ⟨_, feedByte_verifyChecksum hd, ?_⟩
    rw [h.verdict_eq (hverify hds) b]
    exact h.map (fun u => u.clearDeframer.respond (verdict b s)) (fun _ => rfl) (Nat.zero_le _)

/-- A dequeue neither reads nor writes `DBUF` (42_fifo.md R142). -/
theorem dequeue_withBuffer (s : State) (m : List Host.Cell) :
    dequeue { s with dbuf := m } = { dequeue s with dbuf := m } := by
  obtain ⟨_, _, _, _, q⟩ := s
  cases q <;> rfl

/-- No command's rule reads a stale byte. -/
theorem SameButStale.ruleOf_matched {s t s' : State} (h : SameButStale s t) (hs : StateInv s)
    (ht : Memory.wf t.dbuf = true) {i : Instr} (hstep : ruleOf i s = .next s') :
    ∃ t', ruleOf i t = .next t' ∧ SameButStale s' t' := by
  have result (x : Except ErrorKind (List Byte)) : SameButStale (s.respondResult x) (t.respondResult x) := by
    cases x <;> exact h.map (·.respondResult _) (fun _ => rfl) le_rfl
  cases i with
  | decByte b => exact h.feedByte_matched hs ht hstep
  | decReset => cases hstep; exact ⟨_, rfl, h.map (·.clearDeframer.respond .none) (fun _ => rfl) (Nat.zero_le _)⟩
  | encP p => cases hstep; exact ⟨_, rfl, result _⟩
  | encF f => cases hstep; exact ⟨_, rfl, h.map (·.respond (.data f)) (fun _ => rfl) le_rfl⟩
  | encHp x => cases hstep; exact ⟨_, rfl, result _⟩
  | encHf x => cases hstep; exact ⟨_, rfl, result _⟩
  | qEnq bytes now =>
    cases hstep; exact ⟨_, rfl, h.map (enqueue Config.limits bytes now) (fun _ => rfl) le_rfl⟩
  | qDeq =>
    cases hstep
    refine ⟨_, rfl, h.map dequeue (dequeue_withBuffer s) ?_⟩
    obtain ⟨_, hd⟩ | ⟨_, _, _, hd⟩ := dequeue_cases s <;> rw [hd] <;> exact le_rfl
  | qClr => cases hstep; exact ⟨_, rfl, h.map (·.clearFifo.respond .none) (fun _ => rfl) le_rfl⟩
  | blkReset =>
    cases hstep
    exact ⟨_, rfl, h.map (·.clearDeframer.clearFifo.respond .none) (fun _ => rfl) (Nat.zero_le _)⟩

/-- No command reads a stale byte. -/
theorem SameButStale.exec_matched {s t s' : State} (h : SameButStale s t) (hs : StateInv s)
    (ht : Memory.wf t.dbuf = true) {i : Instr} (hstep : exec i s = .next s') :
    ∃ t', exec i t = .next t' ∧ SameButStale s' t' := by
  have hf : t.fault = s.fault := h.fault_eq
  have hi : t.issuer = s.issuer := h.issuer_eq
  rw [exec_eq_performed]
  obtain ⟨hfault, rfl⟩ | ⟨hfault, ha, hrule⟩ | ⟨hfault, ha, rfl⟩ := exec_cases hstep
  · rw [performed_of_fault (hf ▸ hfault), hf]
    exact ⟨_, rfl, h.map (·.respond _) (fun _ => rfl) le_rfl⟩
  · rw [performed_of_allowed (hf.trans hfault) (hi ▸ ha)]
    exact h.ruleOf_matched hs ht hrule
  · rw [performed_of_refused (hf.trans hfault) (hi ▸ ha)]
    exact ⟨_, rfl, h.map State.markRefused (fun _ => rfl) le_rfl⟩

/-- An illegal word's answer reads no byte of `DBUF` (43_control.md R161). -/
theorem SameButStale.execIllegal_matched {s t s' : State} (h : SameButStale s t) (hstep : execIllegal s = .next s') :
    ∃ t', execIllegal t = .next t' ∧ SameButStale s' t' := by
  have hf : t.fault = s.fault := h.fault_eq
  rw [execIllegal_eq] at hstep ⊢
  cases hstep
  refine ⟨_, rfl, ?_⟩
  rw [hf]
  split <;> exact h.map (·.respond _) (fun _ => rfl) le_rfl

/-- Settles O54: both states take the same stimulus, and no kind of step reads a stale byte. -/
theorem staleBytesAreNeverRead : Obligations.StaleBytesAreNeverRead := by
  intro s t s' hs ht h hstep
  have hport : t.port = s.port := h.port_eq
  have hissued (rest : List Stimulus) (a : Agent) :
      SameButStale (({ s with port := rest }).issuedBy a) (({ t with port := rest }).issuedBy a) :=
    h.map (fun u => ({ u with port := rest }).issuedBy a) (fun _ => rfl) le_rfl
  obtain ⟨hp, heq⟩ | ⟨rest, hp, heq⟩ | ⟨c, rest, i, hp, hd, heq⟩ | ⟨c, rest, e, hp, hd, heq⟩ := step_cases s <;>
    rw [heq] at hstep <;> rw [← hport] at hp
  · cases hstep
    exact ⟨t, step_of_empty hp, h⟩
  · cases hstep
    refine ⟨_, step_of_powerOn hp, ?_, fun _ _ => rfl⟩
    rw [h.1]
    rfl
  · rw [step_of_legal hp hd]
    exact (hissued rest c.agent).exec_matched (stateInv_ofBlockState s _ _ _ _ hs) ht hstep
  · rw [step_of_illegal hp hd]
    exact (hissued rest c.agent).execIllegal_matched hstep

end Sys2Proof.Machine
end

section
/-! PROOFS. The order of commands on the port (20_memory.md R48 to R51), and what a command leaves unchanged
(20_memory.md R44, R47). -/

namespace Sys2Proof.Machine

/-! Steps that run a command. -/

/-- Settles O47: `exec` and `execIn` are two performers of one step, and unbounded limits are this hardware's. -/
theorem stepRunsTheDecodedCommand : Obligations.StepRunsTheDecodedCommand := fun _ _ _ _ s hp hd =>
  ⟨step_of_legal hp hd, stepBy_of_legal hp hd, stepIn_limits s⟩

/-- The command an agent presents to have `i` performed decodes to `i` (30_encoding.md R67, R68). -/
theorem decode_encode (a : Agent) (i : Instr) :
    decode (encode a i).cmd (encode a i).opnd (encode a i).now = .ok i := by
  cases i <;> simp [decode, encode, encodeWord, encodeOpnd, encodeNow, plainWord, decodeEnc]

/-- A presented command of an agent with the right runs its rule. -/
theorem step_encode {s t : State} {a : Agent} {i : Instr} {rest : List Stimulus}
    (hp : s.port = .command (encode a i) :: rest) (hf : s.fault = 0) (ha : mayIssue a i = true)
    (h : ruleOf i (({ s with port := rest }).issuedBy a) = .next t) : step s = .next t := by
  have hf' : (({ s with port := rest }).issuedBy a).fault = 0 := hf
  rw [step_of_legal hp (decode_encode a i), exec_eq_performed]
  exact (performed_of_allowed hf' ha).trans h

theorem runSteps_two {s t u : State} (hst : step s = .next t) (htu : step t = .next u) : runSteps 2 s = .next u := by
  rw [runSteps_succ_of_next hst, runSteps_succ_of_next htu, runSteps_zero]

/-- Settles O31: the second of the two commands decides what the FIFO holds. -/
theorem clearAgainstEnqueue : Obligations.ClearAgainstEnqueue := by
  intro a bytes now s rest hf
  have ha : mayIssue a (.qEnq bytes now) = true := anyAgent_true a
  exact ⟨fun hp => ⟨_, runSteps_two (step_encode hp hf ha rfl) (step_encode rfl hf rfl rfl), rfl⟩,
    fun hp => ⟨_, runSteps_two (step_encode hp hf rfl rfl) (step_encode rfl hf ha rfl), rfl⟩⟩

/-! The frame of a command. -/

/-- No command writes the port, the issuer or `FAULT`, takes back a response, or marks an agent with the right. -/
theorem exec_frame {i : Instr} {s t : State} (h : exec i s = .next t) :
    t.port = s.port ∧ t.issuer = s.issuer ∧ t.fault = s.fault ∧ s.responses.IsPrefix t.responses ∧
      (mayIssue s.issuer i = true → t.refusal = s.refusal) := by
  obtain ⟨_, rfl⟩ | ⟨_, _, hr⟩ | ⟨_, hno, rfl⟩ := exec_cases h
  · exact ⟨rfl, rfl, rfl, List.prefix_append _ _, fun _ => rfl⟩
  · obtain ⟨r, hresp, hport, hissuer, hfault, hmark⟩ := ruleOf_frame hr
    exact ⟨hport, hissuer, hfault, ⟨[r], hresp.symm⟩, fun _ => hmark⟩
  · exact ⟨rfl, rfl, rfl, List.prefix_rfl, fun hyes => by simp [hno] at hyes⟩

/-- Every command that does not write the deframer belongs to the FIFO or to the framer (00_scope.md R2). -/
theorem fifo_or_framer_of_ne {i : Instr} (hbyte : ∀ b, i ≠ .decByte b) (hreset : i ≠ .decReset) (hblk : i ≠ .blkReset) :
    isFifoCommand i = true ∨ isFramerCommand i = true := by
  cases i with
  | decByte b => exact absurd rfl (hbyte b)
  | decReset => exact absurd rfl hreset
  | blkReset => exact absurd rfl hblk
  | _ => simp [isFifoCommand, isFramerCommand]

/-- Every command that does not write the FIFO belongs to the deframer or to the framer (00_scope.md R2). -/
theorem deframer_or_framer_of_ne {i : Instr} (henq : ∀ bytes now, i ≠ .qEnq bytes now) (hdeq : i ≠ .qDeq)
    (hclr : i ≠ .qClr) (hblk : i ≠ .blkReset) : isDeframerCommand i = true ∨ isFramerCommand i = true := by
  cases i with
  | qEnq bytes now => exact absurd rfl (henq bytes now)
  | qDeq => exact absurd rfl hdeq
  | qClr => exact absurd rfl hclr
  | blkReset => exact absurd rfl hblk
  | _ => simp [isDeframerCommand, isFramerCommand]

/-- A byte fed to the deframer is stored at `DBUF[DCNT]` in `Reading` and nowhere else (40_deframer.md R91, R95). -/
theorem feedByte_keeps_read {b : Byte} {s t : State} (hwf : Memory.wf s.dbuf = true) (h : feedByte b s = .next t)
    {k : Nat} (hk : k ≠ s.dcnt.toNat ∨ s.dstate ≠ .reading) : Memory.read t.dbuf k = Memory.read s.dbuf k := by
  obtain ⟨_, rfl⟩ | ⟨_, rfl⟩ | ⟨_, rfl⟩ | ⟨hd, m, hm, rfl⟩ | ⟨_, rfl⟩ := feedByte_cases h
  case inr.inr.inr.inl => exact (Memory.read_write hwf hm k).trans (if_neg (hk.resolve_right (· hd)))
  all_goals rfl

/-- No rule but a byte's writes `DBUF` (20_memory.md R44). -/
theorem ruleOf_keeps_dbuf {i : Instr} (hi : ∀ b, i ≠ .decByte b) {s t : State} (h : ruleOf i s = .next t) :
    t.dbuf = s.dbuf := by
  by_cases hreset : i = .decReset
  · subst hreset; cases h; rfl
  by_cases hblk : i = .blkReset
  · subst hblk; cases h; rfl
  obtain hfifo | hframer := fifo_or_framer_of_ne hi hreset hblk
  · obtain ⟨es, r, rfl⟩ := ruleOf_fifo hfifo h; rfl
  · obtain ⟨r, rfl⟩ := ruleOf_framer hframer h; rfl

/-- A command changes no byte of `DBUF` but the one that `DEC.BYTE` stores (20_memory.md R44). -/
theorem exec_keeps_read {i : Instr} {s t : State} (hwf : Memory.wf s.dbuf = true) (h : exec i s = .next t) {k : Nat}
    (hk : k ≠ s.dcnt.toNat ∨ s.dstate ≠ .reading ∨ ∀ b, i ≠ .decByte b) :
    Memory.read t.dbuf k = Memory.read s.dbuf k := by
  refine exec_keeps (f := fun u => Memory.read u.dbuf k) (fun _ _ => rfl) (fun _ => rfl) (fun hr => ?_) h
  by_cases hi : ∀ b, i ≠ .decByte b
  · rw [ruleOf_keeps_dbuf hi hr]
  · have hk' : k ≠ s.dcnt.toNat ∨ s.dstate ≠ .reading := hk.imp_right (·.resolve_right hi)
    push Not at hi
    obtain ⟨b, rfl⟩ := hi
    exact feedByte_keeps_read hwf hr hk'

/-- Settles O46: the shared frame, the units' frames by the unit a command belongs to, and the one stored byte. -/
theorem commandFrame : Obligations.CommandFrame := by
  intro i s t hwf h
  obtain ⟨hport, hissuer, hfault, hresp, hmark⟩ := exec_frame h
  refine ⟨hport, hissuer, hfault, hresp, hmark, fun hbyte hreset hblk => ?_, fun henq hdeq hclr hblk => ?_,
    fun k hk => exec_keeps_read hwf h hk⟩
  · obtain ⟨hstate, hlen, hcnt, _⟩ :=
      State.deframerPart_eq_iff.mp (exec_keeps_deframerPart (fifo_or_framer_of_ne hbyte hreset hblk) h)
    exact ⟨hstate, hlen, hcnt⟩
  · exact exec_keeps_q (deframer_or_framer_of_ne henq hdeq hclr hblk) h

/-! The FIFO's entries over a run (42_fifo.md R145). -/

@[simp] theorem dequeued_nil : dequeued [] = [] := rfl

@[simp] theorem dequeued_append (rs rs' : List Response) : dequeued (rs ++ rs') = dequeued rs ++ dequeued rs' :=
  List.filterMap_append

/-- From `s` to `t` the responses grow, and what they dequeue, followed by the FIFO of `t`, is the FIFO of `s` followed
by the entries `es`. -/
def Conserves (s t : State) (es : List Entry) : Prop :=
  ∃ rs, t.responses = s.responses ++ rs ∧ dequeued rs ++ t.q = s.q ++ es

theorem Conserves.refl (s : State) : Conserves s s [] := ⟨[], by simp, by simp⟩

theorem Conserves.trans {s t u : State} {es es' : List Entry} (hst : Conserves s t es) (htu : Conserves t u es') :
    Conserves s u (es ++ es') := by
  obtain ⟨rs, hrs, hq⟩ := hst
  obtain ⟨rs', hrs', hq'⟩ := htu
  refine ⟨rs ++ rs', by rw [hrs', hrs, List.append_assoc], ?_⟩
  rw [dequeued_append, List.append_assoc, hq', ← List.append_assoc, hq, List.append_assoc]

/-- A response that carries no entry, with the FIFO as it was, conserves it. -/
theorem Conserves.of_response {s t : State} {r : Response} (hresp : t.responses = s.responses ++ [r])
    (hr : dequeued [r] = []) (hq : t.q = s.q) : Conserves s t [] := ⟨[r], hresp, by simp [hr, hq]⟩

/-- The entry an instruction appends when it is performed (42_fifo.md R140). -/
def appendedEntry : Instr → Option Entry
  | .qEnq bytes now => some { ts := now, bytes := bytes }
  | _ => none

theorem enqueuedEntry_of_legal {c : Command} {i : Instr} (hd : decode c.cmd c.opnd c.now = .ok i) :
    enqueuedEntry (.command c) = appendedEntry i := by
  simp only [enqueuedEntry, hd]
  cases i <;> rfl

theorem enqueuedEntry_of_illegal {c : Command} {e : DecodeError} (hd : decode c.cmd c.opnd c.now = .error e) :
    enqueuedEntry (.command c) = none := by
  simp only [enqueuedEntry, hd]

/-- Every agent may enqueue, so a refused command appends nothing (10_state.md R29). -/
theorem appendedEntry_of_refused {a : Agent} {i : Instr} (h : mayIssue a i = false) : appendedEntry i = none := by
  cases i with
  | qEnq bytes now => simp [mayIssue] at h
  | _ => rfl

/-- A byte is answered with no entry (40_deframer.md R91). -/
theorem feedByte_conserves {b : Byte} {s t : State} (h : feedByte b s = .next t) : Conserves s t [] := by
  obtain ⟨_, rfl⟩ | ⟨_, rfl⟩ | ⟨_, rfl⟩ | ⟨_, _, _, rfl⟩ | ⟨_, rfl⟩ := feedByte_cases h
  case inr.inr.inr.inr =>
    obtain ⟨_, hv⟩ | ⟨_, hv⟩ := verdict_cases b s <;> exact .of_response rfl (by rw [hv]; rfl) rfl
  all_goals exact .of_response rfl rfl rfl

/-- A framer result is no entry (41_framer.md R126). -/
theorem respondResult_conserves (s : State) (x : Except ErrorKind (List Byte)) :
    Conserves s (s.respondResult x) [] := by
  cases x <;> exact .of_response rfl rfl rfl

/-- What `Q.DEQ` takes from the FIFO it answers (42_fifo.md R142). -/
theorem dequeue_conserves (s : State) : Conserves s (dequeue s) [] := by
  obtain ⟨_, hd⟩ | ⟨e, rest, hq, hd⟩ := dequeue_cases s <;> rw [hd]
  · exact .of_response rfl rfl rfl
  · exact ⟨[.entry e.ts e.bytes], rfl, by simp [hq, dequeued]⟩

/-- A rule that discards no entry appends the one of its own command, if any, and removes only what it answers. -/
theorem ruleOf_conserves {i : Instr} (hclr : i ≠ .qClr) (hblk : i ≠ .blkReset) {s t : State}
    (h : ruleOf i s = .next t) : Conserves s t (appendedEntry i).toList := by
  cases i with
  | decByte b => exact feedByte_conserves h
  | decReset => cases h; exact .of_response rfl rfl rfl
  | encP p => cases h; exact respondResult_conserves s _
  | encF f => cases h; exact .of_response rfl rfl rfl
  | encHp x => cases h; exact respondResult_conserves s _
  | encHf x => cases h; exact respondResult_conserves s _
  | qEnq bytes now => cases h; exact ⟨[.none], rfl, rfl⟩
  | qDeq => cases h; exact dequeue_conserves s
  | qClr => exact absurd rfl hclr
  | blkReset => exact absurd rfl hblk

theorem exec_conserves {i : Instr} (hclr : i ≠ .qClr) (hblk : i ≠ .blkReset) {s t : State} (hf : s.fault = 0)
    (h : exec i s = .next t) : Conserves s t (appendedEntry i).toList := by
  obtain ⟨hf', _⟩ | ⟨_, _, hr⟩ | ⟨_, hno, rfl⟩ := exec_cases h
  · exact absurd hf hf'
  · exact ruleOf_conserves hclr hblk hr
  · rw [appendedEntry_of_refused hno]
    exact .refl s

/-- One stimulus that discards nothing is taken from the port and conserves the FIFO's entries. -/
theorem step_conserves {s t : State} {x : Stimulus} {rest : List Stimulus} (hf : s.fault = 0)
    (hp : s.port = x :: rest) (hx : discardsFifo x = false) (h : step s = .next t) :
    t.port = rest ∧ Conserves s t (enqueuedEntry x).toList := by
  cases x with
  | powerOn => cases hx
  | command c =>
    have hf' : (({ s with port := rest }).issuedBy c.agent).fault = 0 := hf
    cases hd : decode c.cmd c.opnd c.now with
    | ok i =>
      have hclr : i ≠ .qClr := by rintro rfl; simp [discardsFifo, hd] at hx
      have hblk : i ≠ .blkReset := by rintro rfl; simp [discardsFifo, hd] at hx
      rw [step_of_legal hp hd] at h
      obtain ⟨hport, _⟩ := exec_frame h
      have hcons := exec_conserves hclr hblk hf' h
      rw [enqueuedEntry_of_legal hd]
      exact ⟨hport, hcons⟩
    | error e =>
      rw [step_of_illegal hp hd, execIllegal_eq, if_pos hf'] at h
      cases h
      rw [enqueuedEntry_of_illegal hd]
      exact ⟨rfl, .of_response rfl rfl rfl⟩

/-- Stimuli that discard nothing conserve the FIFO's entries, in order (42_fifo.md R145). -/
theorem runSteps_conserves {ins rest : List Stimulus} {s t : State} (hf : s.fault = 0) (hp : s.port = ins ++ rest)
    (hkeep : ∀ x ∈ ins, discardsFifo x = false) (h : runSteps ins.length s = .next t) :
    Conserves s t (ins.filterMap enqueuedEntry) := by
  induction ins generalizing s with
  | nil => cases h; exact .refl _
  | cons x ins ih =>
    obtain ⟨hx, hins⟩ := List.forall_mem_cons.mp hkeep
    obtain ⟨u, hu, hrun⟩ := runSteps_succ_inv h
    obtain ⟨hport, hstep⟩ := step_conserves hf hp hx hu
    have hsplit : (x :: ins).filterMap enqueuedEntry = (enqueuedEntry x).toList ++ ins.filterMap enqueuedEntry := by
      cases hx : enqueuedEntry x <;> simp [hx]
    rw [hsplit]
    exact hstep.trans (ih (step_keeps_fault_zero hf hu) hport hins hrun)

/-! Linearizations (20_memory.md R48). -/

/-- What an agent issued stands on the port in that agent's order. -/
theorem IsLinearization.map_command_sublist {issued : Agent → List Command} {port : List Stimulus}
    (h : IsLinearization issued port) (a : Agent) : ((issued a).map Stimulus.command).Sublist port := by
  rw [← h a]
  clear h
  induction port with
  | nil => exact .slnil
  | cons x port ih =>
    cases x with
    | powerOn => exact ih.cons _
    | command c =>
      by_cases hc : c.agent = a
      · simpa [hc] using ih
      · simpa [hc] using ih.cons (.command c)

/-- Settles O30: the FIFO keeps the port's order, of which each agent's commands are a sublist. -/
theorem eachAgentsEntriesKeepTheirOrder : Obligations.EachAgentsEntriesKeepTheirOrder := by
  intro issued s t hf hq hlin hkeep h a
  obtain ⟨rs, hresp, hcons⟩ := runSteps_conserves hf (List.append_nil _).symm hkeep h
  have hentries : dequeued (t.responses.drop s.responses.length) ++ t.q = s.port.filterMap enqueuedEntry := by
    rw [hresp, List.drop_left, hcons, hq, List.nil_append]
  rw [hentries, show (fun c => enqueuedEntry (.command c)) = enqueuedEntry ∘ Stimulus.command from rfl,
    ← List.filterMap_map]
  exact (hlin.map_command_sublist a).filterMap enqueuedEntry

end Sys2Proof.Machine
end

section
/-! PROOFS. Decoder, encoder and opcode map agree (30_encoding.md R66 to R69). -/

namespace Sys2Proof.Machine

/-- Settles O55: the fields of a laid-out word are the ones it was laid out from. -/
theorem decodeOfEncode : Obligations.DecodeOfEncode := decode_encode

/-! What a decoded word looks like. -/

theorem noForm_eq_true {w : Word} : noForm w = true ↔ z1Field w = 0 ∧ hField w = false ∧ fField w = false := by
  simp [noForm, and_assoc]

/-- A word with bits 11:8 all 0 is laid out from `op` and `b` alone. -/
theorem layout_of_noForm {w : Word} {op : BitVec 4} (hop : opField w = op) (hform : noForm w = true) :
    layout op false false (bField w) = w := by
  obtain ⟨hz, hh, hf⟩ := noForm_eq_true.mp hform
  simpa only [hop, hh, hf] using layout_of_fields w hz

/-- A plain command's word has nothing but its group. -/
theorem plainWord_eq_ok {w : Word} {op : BitVec 4} {i j : Instr} (hop : opField w = op) (h : plainWord w i = .ok j) :
    j = i ∧ layout op false false 0 = w := by
  unfold plainWord at h
  split at h
  · rename_i hplain
    obtain ⟨hform, hb⟩ : noForm w = true ∧ bField w = 0 := by simpa using hplain
    cases h
    exact ⟨rfl, hb ▸ layout_of_noForm hop hform⟩
  · cases h

/-- A framer command's word has its group and its two form bits, and the command its whole operand. -/
theorem decodeEnc_eq_ok {w : Word} {opnd : List Byte} {i : Instr} (hop : opField w = 3)
    (h : decodeEnc w opnd = .ok i) : encodeWord i = w ∧ encodeOpnd i = opnd ∧ isFramerCommand i = true := by
  unfold decodeEnc at h
  split at h
  · rename_i hzero
    obtain ⟨hz, hb⟩ : z1Field w = 0 ∧ bField w = 0 := by simpa using hzero
    have hw : layout 3 (hField w) (fField w) 0 = w := by simpa only [hop, hb] using layout_of_fields w hz
    split at h <;> rename_i hh hf <;> cases h <;> rw [hh, hf] at hw <;> exact ⟨hw, rfl, rfl⟩
  · cases h

/-- Settles O56: group by group, the fields the decoder asks for are those the encoder lays out. -/
theorem encodeOfDecode : Obligations.EncodeOfDecode := by
  intro w opnd now i h
  unfold decode at h
  split_ifs at h with h1 hform h2 h3 h4 h5 h6 h7
  · cases h
    exact ⟨layout_of_noForm h1 hform, .inr rfl, nofun, fun ⟨_, _, hi⟩ => nomatch hi⟩
  · obtain ⟨rfl, hw⟩ := plainWord_eq_ok h2 h
    exact ⟨hw, .inr rfl, nofun, fun ⟨_, _, hi⟩ => nomatch hi⟩
  · obtain ⟨hw, hopnd, hframer⟩ := decodeEnc_eq_ok h3 h
    exact ⟨hw, .inl hopnd, fun _ => hopnd, by rintro ⟨_, _, rfl⟩; cases hframer⟩
  · obtain ⟨rfl, hw⟩ := plainWord_eq_ok h4 h
    exact ⟨hw, .inl rfl, fun _ => rfl, fun _ => ⟨rfl, rfl⟩⟩
  · obtain ⟨rfl, hw⟩ := plainWord_eq_ok h5 h
    exact ⟨hw, .inr rfl, nofun, fun ⟨_, _, hi⟩ => nomatch hi⟩
  · obtain ⟨rfl, hw⟩ := plainWord_eq_ok h6 h
    exact ⟨hw, .inr rfl, nofun, fun ⟨_, _, hi⟩ => nomatch hi⟩
  · obtain ⟨rfl, hw⟩ := plainWord_eq_ok h7 h
    exact ⟨hw, .inr rfl, nofun, fun ⟨_, _, hi⟩ => nomatch hi⟩

/-! The opcode map. -/

/-- Every command word is a word of the opcode map. -/
theorem legalWord_encodeWord (i : Instr) : legalWord (encodeWord i) = true := by
  cases i with
  | decByte b => exact (Laws.EncodesLegally.decByte b).1
  | decReset => exact Laws.EncodesLegally.decReset.1
  | encP opnd => exact (Laws.EncodesLegally.encP opnd).1
  | encF opnd => exact (Laws.EncodesLegally.encF opnd).1
  | encHp opnd => exact (Laws.EncodesLegally.encHp opnd).1
  | encHf opnd => exact (Laws.EncodesLegally.encHf opnd).1
  | qEnq opnd now => exact (Laws.EncodesLegally.qEnq opnd now).1
  | qDeq => exact Laws.EncodesLegally.qDeq.1
  | qClr => exact Laws.EncodesLegally.qClr.1
  | blkReset => exact Laws.EncodesLegally.blkReset.1

/-- A word of no row is refused: a decoded word is the word of its command. -/
theorem decode_of_not_legalWord {w : Word} (hw : legalWord w = false) (opnd : List Byte) (now : Config.TS) :
    ∃ e, decode w opnd now = .error e := by
  cases hd : decode w opnd now with
  | error e => exact ⟨e, rfl⟩
  | ok i =>
    obtain ⟨rfl, _⟩ := encodeOfDecode w opnd now i hd
    rw [legalWord_encodeWord] at hw
    cases hw

/-- The high byte in its place and the low byte make the word. -/
theorem and_0xFF00_or_low_byte (w : Word) : (w &&& 0xFF00) ||| (w.setWidth 8).setWidth 16 = w := by
  ext i hi
  interval_cases i <;> simp

/-- The words of the `DEC.BYTE` row are those of its commands. -/
theorem encodeWord_decByte_of_row {w : Word} (h : w &&& 0xFF00 = 0x1000) :
    encodeWord (.decByte (w.setWidth 8)) = w := by
  calc encodeWord (.decByte (w.setWidth 8)) = 0x1000 ||| (w.setWidth 8).setWidth 16 := by simp [encodeWord, layout]
    _ = w := by rw [← h, and_0xFF00_or_low_byte]

/-- Masking the low byte off leaves the high byte in its place. -/
theorem and_0xFF00_eq (w : Word) : w &&& (0xFF00 : Word) = (w >>> 8) <<< 8 := by
  ext i hi
  interval_cases i <;> simp

/-- The words of the `DEC.BYTE` row are those whose high byte is 0x10. -/
theorem and_0xFF00_eq_0x1000 {w : Word} : w &&& 0xFF00 = 0x1000 ↔ w.toNat / 256 = 0x10 := by
  rw [and_0xFF00_eq, ← BitVec.toNat_inj]
  bv_omega

/-- The legal words: the `DEC.BYTE` row, and one word for every other row. -/
theorem legalWord_eq_true {w : Word} : legalWord w = true ↔ w &&& 0xFF00 = 0x1000 ∨
    w ∈ [0x2000, 0x3000, 0x3100, 0x3200, 0x3300, 0x4000, 0x5000, 0x6000, 0x7000] := by
  have hfull : w &&& 0xFFFF#16 = w := BitVec.and_allOnes
  simp [legalWord, opcodeRows, OpcodeRow.covers, hfull]

/-- Two rows that cover one word agree on the bits both of them fix. -/
theorem pattern_and_mask_of_covers {r r' : OpcodeRow} {w : Word} (h : r.covers w = true)
    (h' : r'.covers w = true) : r.pattern &&& r'.mask = r'.pattern &&& r.mask := by
  simp only [OpcodeRow.covers, beq_iff_eq] at h h'
  rw [← h, ← h', BitVec.and_assoc, BitVec.and_assoc, BitVec.and_comm r.mask]

/-- Any two rows of the opcode map differ in a bit both of them fix. -/
theorem opcodeRows_pairwise : opcodeRows.Pairwise (fun r r' => r.pattern &&& r'.mask ≠ r'.pattern &&& r.mask) := by
  decide

/-- No word matches two rows (30_encoding.md R67). -/
theorem length_filter_covers_le_one (w : Word) : (opcodeRows.filter (fun r => r.covers w)).length ≤ 1 := by
  have hpair := opcodeRows_pairwise.filter (fun r => r.covers w)
  have hcov : ∀ r ∈ opcodeRows.filter (fun r => r.covers w), r.covers w = true :=
    fun _ hr => (List.mem_filter.mp hr).2
  generalize opcodeRows.filter (fun r => r.covers w) = rows at hpair hcov
  match rows with
  | [] => simp
  | [_] => simp
  | r :: r' :: rows =>
    have hne : r.pattern &&& r'.mask ≠ r'.pattern &&& r.mask := List.rel_of_pairwise_cons hpair (by simp)
    exact absurd (pattern_and_mask_of_covers (hcov r (by simp)) (hcov r' (by simp))) hne

/-- Settles O57: the words of the `DEC.BYTE` row are its commands', the other rows' one word each is evaluated. -/
theorem decodeFollowsOpcodeMap : Obligations.DecodeFollowsOpcodeMap := by
  intro w opnd now
  refine ⟨fun h => ?_, ?_, ?_, ?_, ?_, ?_, ?_, ?_, ?_, ?_, fun h => decode_of_not_legalWord h opnd now,
    length_filter_covers_le_one w⟩
  · simpa only [encodeWord_decByte_of_row h] using decode_decByte (w.setWidth 8) opnd now
  all_goals (rintro rfl; rfl)

/-- Settles O58: rows and fields are both ranges of the word as a number. -/
theorem illegalWordsAreTheReservedOnes : Obligations.IllegalWordsAreTheReservedOnes := by
  intro w
  have hlt := w.isLt
  rw [← Bool.not_eq_true, legalWord_eq_true, and_0xFF00_eq_0x1000]
  simp only [List.mem_cons, List.not_mem_nil, or_false, ne_eq, ← BitVec.toNat_inj, BitVec.ofNat_eq_ofNat,
    BitVec.toNat_ofNat, BitVec.extractLsb'_toNat, Nat.shiftRight_eq_div_pow]
  omega

/-- Settles O59: each word's fields are evaluated. -/
theorem decodeOfSampleWords : Obligations.DecodeOfSampleWords := fun _ => ⟨rfl, rfl, rfl, rfl, rfl, rfl, rfl⟩

end Sys2Proof.Machine
end

section
/-! PROOFS. The conditions of a valid frame (30_encoding.md R62). -/

namespace Sys2Proof.Machine

/-- The conditions on a sequence that has its two sync bytes and its length byte (30_encoding.md R62). -/
theorem validFrame_cons_eq_true (s0 s1 n : Byte) (rest : List Byte) :
    validFrame (s0 :: s1 :: n :: rest) = true ↔
      s0 = 0xCC ∧ s1 = 0xAA ∧ rest.length = n.toNat + 1 ∧ rest[n.toNat]? = some (csum8 n (rest.take n.toNat)) := by
  simp [validFrame, Config.sync0, Config.sync1, and_assoc]

/-- A checksum byte is the right one when it completes the sum to 0 modulo 256 (30_encoding.md R62). -/
theorem eq_csum8_iff {c n : Byte} {p : List Byte} : c = csum8 n p ↔ (n.toNat + byteSum p + c.toNat) % 256 = 0 := by
  have hc := c.isLt
  rw [← BitVec.toNat_inj, csum8_toNat]
  omega

/-- Settles O17: after the header stand a payload of the declared length and one byte, which `eq_csum8_iff` judges. -/
theorem validFrameConditions : Obligations.ValidFrameConditions := by
  intro f
  match f with
  | [] | [_] | [_, _] => simp [validFrame]
  | s0 :: s1 :: n :: rest =>
    refine ⟨?_, fun m hm hlen => ?_⟩
    · simp +contextual [validFrame_cons_eq_true, Nat.add_comm 3]
    · obtain rfl : n = m := by simpa using hm
      have hlen : rest.length = n.toNat + 1 := by simpa using hlen
      obtain ⟨p, c, rfl⟩ : ∃ p c, rest = p ++ [c] :=
        ⟨_, _, (List.dropLast_concat_getLast (by rintro rfl; simp at hlen)).symm⟩
      have hp : p.length = n.toNat := by simpa using hlen
      rw [← Nat.add_comm n.toNat 3, ← hp]
      simpa [byteSum, hp, Nat.add_assoc] using eq_csum8_iff (c := c) (n := n) (p := p)

end Sys2Proof.Machine
end

section
/-! PROOFS. `SEND.P` performed alone (30_encoding.md R73; log entry 16). -/

namespace Sys2Proof.Machine

/-- Without a fault, a command of an agent with the right runs its rule (60_exceptions.md R178). -/
theorem exec_of_allowed {i : Instr} {s : State} (hf : s.fault = 0) (ha : mayIssue s.issuer i = true) :
    exec i s = ruleOf i s := by
  rw [exec_eq_performed]
  exact performed_of_allowed hf ha

theorem execAll_singleton (i : Instr) (s : State) : execAll [i] s = exec i s := by
  simp only [execAll]
  cases exec i s <;> rfl

/-- A pseudo-instruction answered `r` to its first command goes on with what it issues on `r` (30_encoding.md R73). -/
theorem performAlone_of_response {pseudo : Pseudo} {i : Instr} {s : State} {r : Response} (hi : pseudo.commands = [i])
    (h : exec i s = .next (s.respond r)) : pseudo.performAlone s = execAll (pseudo.next r).toList (s.respond r) := by
  simp [Pseudo.performAlone, hi, execAll_singleton, h]

/-- Settles O60: `ENC.P` answers the frame, which `Q.ENQ` appends, or the error, on which nothing more is issued. -/
theorem sendPEnqueuesTheFrame : Obligations.SendPEnqueuesTheFrame := by
  intro p now s hf
  have hencP : exec (.encP p) s = .next (s.respondResult (framePayload p)) :=
    exec_of_allowed hf (anyAgent_true s.issuer)
  by_cases hp : p.length ≤ 255
  · rw [framePayload_ok hp] at hencP
    have henq : exec (.qEnq (frameOf p) now) (s.respond (.data (frameOf p))) =
        .next (((s.respond (.data (frameOf p))).pushEntry { ts := now, bytes := frameOf p }).respond .none) :=
      exec_of_allowed hf (anyAgent_true s.issuer)
    rw [performAlone_of_response rfl hencP, if_pos hp]
    refine (execAll_singleton _ _).trans (henq.trans ?_)
    simp [State.pushEntry, State.withFifo, State.respond]
  · rw [framePayload_tooLong (by omega)] at hencP
    rw [performAlone_of_response rfl hencP, if_neg hp]
    rfl

end Sys2Proof.Machine
end

section
/-! PROOFS. One byte fed to the deframer, in each decoder state (40_deframer.md R90 to R101, R105). -/

namespace Sys2Proof.Machine

/-- The worker's `DEC.BYTE` is one transition of the deframer (40_deframer.md R91). -/
theorem exec_decByte {s : State} (hf : s.fault = 0) (hi : s.issuer = .worker) (b : Byte) :
    exec (.decByte b) s = feedByte b s := exec_of_allowed hf (hi ▸ workerOnly_worker)

/-- Settles O3: the row of `Desync`. -/
theorem desyncScansForFirstSyncByte : Obligations.DesyncScansForFirstSyncByte := fun b _ hf hi hd =>
  (exec_decByte hf hi b).trans (feedByte_desync hd)

/-- Settles O5: the row of `Synced`. -/
theorem syncedTakesAnyByteAsLength : Obligations.SyncedTakesAnyByteAsLength := fun b _ hf hi hd =>
  (exec_decByte hf hi b).trans (feedByte_synced hd)

/-- Settles O9: the rule of `DEC.RESET`. -/
theorem decResetAbandonsPartialFrame : Obligations.DecResetAbandonsPartialFrame := fun _ hf hi =>
  exec_of_allowed hf (hi ▸ workerOnly_worker)

/-- Counting one byte more reaches `DLEN` as a byte exactly when it does as a number (40_deframer.md R95). -/
theorem add_one_eq_iff {c l : Byte} (h : c.toNat < 255) : c + 1 = l ↔ c.toNat + 1 = l.toNat := by
  rw [← BitVec.toNat_inj, toNat_add_one_of_lt h]

/-- Settles O6: the row of `Reading`, with `DCNT` below 255 because it is below `DLEN`. -/
theorem readingStoresPayloadByte : Obligations.ReadingStoresPayloadByte := by
  intro b s hf hi hd hlt hwf
  have hc : s.dcnt.toNat < 255 := by have := s.dlen.isLt; omega
  have hread := Memory.read_write hwf (Memory.write_some b hc)
  refine ⟨_, (exec_decByte hf hi b).trans (feedByte_reading hd hc),
    (hread _).trans (if_pos rfl), fun a ha => (hread a).trans (if_neg ha), toNat_add_one_of_lt hc, ?_, ?_, rfl⟩
  · rw [State.respond_dcnt, byteInReading_dcnt, toNat_add_one_of_lt hc]
    exact hlt
  · rw [State.respond_dstate, byteInReading_dstate]
    simp only [add_one_eq_iff hc]

/-! The checksum byte. -/

/-- `DBUF[0..n)` is the payload whose bytes are read there (20_memory.md R44). -/
theorem Memory.prefixBytes_eq_of_read {m : List Host.Cell} {p : List Byte}
    (h : ∀ k (hk : k < p.length), Memory.read m k = some p[k]) : Memory.prefixBytes m p.length = p := by
  refine List.ext_getElem (Memory.prefixBytes_length m _) fun k _ hk => ?_
  have hread := h k hk
  rw [Memory.read] at hread
  split at hread
  · rw [Memory.prefixBytes_getElem]
    exact Option.some.inj hread
  · cases hread

/-- What a checksum byte is answered with after the payload `p` of declared length `l` (40_deframer.md R96, R97). -/
def verdictOn (l : Byte) (p : List Byte) (c : Byte) : Response :=
  if c = csum8 l p then .deliver p else .reject l c (csum8 l p)

theorem verdict_eq_verdictOn (c : Byte) (s : State) :
    verdict c s = verdictOn s.dlen (Memory.prefixBytes s.dbuf s.dlen.toNat) c := rfl

theorem verdictOn_csum8 (l : Byte) (p : List Byte) : verdictOn l p (csum8 l p) = .deliver p := if_pos rfl

theorem verdictOn_of_ne {l c : Byte} {p : List Byte} (h : c ≠ csum8 l p) :
    verdictOn l p c = .reject l c (csum8 l p) := if_neg h

/-- Whatever the byte is, `VerifyChecksum` ends the frame (40_deframer.md R98). -/
theorem exec_decByte_of_verifyChecksum {s : State} {p : List Byte} (hf : s.fault = 0) (hi : s.issuer = .worker)
    (hd : s.dstate = .verifyChecksum) (hlen : p.length = s.dlen.toNat)
    (hread : ∀ k (hk : k < p.length), Memory.read s.dbuf k = some p[k]) (c : Byte) :
    exec (.decByte c) s = .next (s.clearDeframer.respond (verdictOn s.dlen p c)) := by
  rw [exec_decByte hf hi, feedByte_verifyChecksum hd, verdict_eq_verdictOn, ← hlen, Memory.prefixBytes_eq_of_read hread]

/-- Settles O7: the verdict on the right checksum. -/
theorem checksumMatchDelivers : Obligations.ChecksumMatchDelivers := by
  intro p s hf hi hd hlen hread
  rw [exec_decByte_of_verifyChecksum hf hi hd hlen hread, verdictOn_csum8]
  rfl

/-- Settles O8: the verdict on any other byte. -/
theorem checksumMismatchRejects : Obligations.ChecksumMismatchRejects := by
  intro b p s hf hi hd hlen hread hb
  rw [exec_decByte_of_verifyChecksum hf hi hd hlen hread, verdictOn_of_ne hb]
  rfl

/-! Compensating corruption (40_deframer.md R105). -/

/-- The checksum depends on the payload through its sum as bytes only. -/
theorem csum8_eq_neg_sum (n : Byte) (p : List Byte) : csum8 n p = -(n + p.sum) := by
  rw [csum8_eq_neg, List.sum_eq_foldl]

/-- `+d` on one payload byte and `-d` on another leave the sum as it was. -/
theorem sum_set_add_set_sub (p : List Byte) {j k : Nat} (hj : j < p.length) (hk : k < p.length) (hjk : j ≠ k)
    (d : Byte) : ((p.set j (p[j] + d)).set k (p[k] - d)).sum = p.sum := by
  have hk' : k < (p.set j (p[j] + d)).length := by rwa [List.length_set]
  rw [List.sum_set', dif_pos hk', List.sum_set', dif_pos hj, List.getElem_set_ne hjk]
  abel

/-- Settles O25: the changed payload has the checksum of `p`, so that `O7` delivers it. -/
theorem compensatingCorruptionIsDelivered : Obligations.CompensatingCorruptionIsDelivered := by
  intro p j k hj hk d s hjk hf hi hd hlen hread
  have hcsum : csum8 s.dlen p = csum8 s.dlen ((p.set j (p[j] + d)).set k (p[k] - d)) := by
    rw [csum8_eq_neg_sum, csum8_eq_neg_sum, sum_set_add_set_sub p hj hk hjk]
  rw [hcsum]
  refine checksumMatchDelivers _ s hf hi hd (by simpa using hlen) fun m hm => ?_
  rw [hread m (by simpa using hm), getElem!_pos _ m hm]

/-! Deliveries (40_deframer.md R101). -/

/-- No rule but a byte's delivers a payload. -/
theorem ruleOf_delivers {i : Instr} {s t : State} {p : List Byte} (h : ruleOf i s = .next t)
    (hresp : t.responses = s.responses ++ [.deliver p]) : ∃ b, i = .decByte b := by
  have result {x : Except ErrorKind (List Byte)} (hx : (s.respondResult x).responses = s.responses ++ [.deliver p]) :
      False := by
    cases x <;> simp [State.respondResult] at hx
  cases i with
  | decByte b => exact ⟨b, rfl⟩
  | encP q => cases h; exact (result hresp).elim
  | encHp x => cases h; exact (result hresp).elim
  | encHf x => cases h; exact (result hresp).elim
  | qDeq =>
    cases h
    obtain ⟨_, hd⟩ | ⟨_, _, _, hd⟩ := dequeue_cases s <;> simp [hd] at hresp
  | _ => cases h; simp at hresp

/-- A byte delivers in `VerifyChecksum` alone, and then `DBUF[0..DLEN)` (40_deframer.md R96). -/
theorem feedByte_delivers {b : Byte} {s t : State} {p : List Byte} (h : feedByte b s = .next t)
    (hresp : t.responses = s.responses ++ [.deliver p]) :
    s.dstate = .verifyChecksum ∧ p = Memory.prefixBytes s.dbuf s.dlen.toNat := by
  obtain ⟨_, rfl⟩ | ⟨_, rfl⟩ | ⟨_, rfl⟩ | ⟨_, _, _, rfl⟩ | ⟨hd, rfl⟩ := feedByte_cases h
  case inr.inr.inr.inr =>
    obtain ⟨_, hv⟩ | ⟨_, hv⟩ := verdict_cases b s <;> simp [hv] at hresp
    exact ⟨hd, hresp.symm⟩
  all_goals simp at hresp

/-- A command delivers in `VerifyChecksum` alone, and then `DBUF[0..DLEN)` (40_deframer.md R101). -/
theorem exec_delivers {i : Instr} {s t : State} {p : List Byte} (h : exec i s = .next t)
    (hresp : t.responses = s.responses ++ [.deliver p]) :
    s.dstate = .verifyChecksum ∧ p = Memory.prefixBytes s.dbuf s.dlen.toNat := by
  obtain ⟨_, rfl⟩ | ⟨_, _, hr⟩ | ⟨_, _, rfl⟩ := exec_cases h
  · simp at hresp
  · obtain ⟨b, rfl⟩ := ruleOf_delivers hr hresp
    exact feedByte_delivers hr hresp
  · simp at hresp

/-- `DBUF[0..DLEN)` is read byte by byte: `DLEN` is at most the size of `DBUF` (10_state.md R25). -/
theorem Memory.read_eq_prefixBytes (m : List Host.Cell) (l : Byte) (k : Nat)
    (hk : k < (Memory.prefixBytes m l.toNat).length) :
    Memory.read m k = some (Memory.prefixBytes m l.toNat)[k] := by
  have hl := l.isLt
  rw [Memory.prefixBytes_length] at hk
  rw [Memory.read_of_lt m (by omega), Memory.prefixBytes_getElem]

/-- Settles O10: of all steps only a command's can deliver. -/
theorem deliveryHasDeclaredLength : Obligations.DeliveryHasDeclaredLength := by
  intro s t p h hresp
  obtain ⟨_, hstep⟩ | ⟨_, _, hstep⟩ | ⟨c, rest, i, _, _, hstep⟩ | ⟨c, rest, _, _, _, hstep⟩ := step_cases s <;>
    rw [hstep] at h
  · cases h; simp at hresp
  · cases h; simp at hresp
  · obtain ⟨hd, rfl⟩ := exec_delivers h hresp
    exact ⟨hd, Memory.prefixBytes_length _ _, Memory.read_eq_prefixBytes s.dbuf s.dlen⟩
  · rw [execIllegal_eq] at h
    cases h
    split at hresp <;> simp at hresp

end Sys2Proof.Machine
end

section
/-! PROOFS. Byte streams fed to the deframer (40_deframer.md R93, R99, R102, R103): triples over streams, one per row of
the deframer's table, put together to synchronisation, frames and noise. -/

namespace Sys2Proof.Machine

/-! Triples over byte streams. -/

/-- The run from `s` that performs the `bytes` presented before `rest` ends in `t`, gives the responses `rs` and
touches the deframer alone. -/
structure Feeds (bytes : List Byte) (rest : List Stimulus) (rs : List Response) (s t : State) : Prop where
  run : runSteps bytes.length s = .next t
  port : t.port = rest
  responses : t.responses = s.responses ++ rs
  q : t.q = s.q
  fault : t.fault = s.fault
  refusal : t.refusal = s.refusal

/-- Fed `bytes` in any state that meets `P`, the block answers `rs` and is in a state that meets `Q`. -/
def Takes (P : State → Prop) (bytes : List Byte) (rs : List Response) (Q : State → Prop) : Prop :=
  ∀ (s : State) (rest : List Stimulus), s.fault = 0 → s.port = feed bytes ++ rest → P s →
    ∃ t, Feeds bytes rest rs s t ∧ Q t

section

variable {P Q R : State → Prop} {xs ys : List Byte} {rs rs' : List Response}

theorem Takes.nil : Takes P [] [] P := fun s _ _ hp hP =>
  ⟨s, ⟨rfl, hp, (List.append_nil _).symm, rfl, rfl, rfl⟩, hP⟩

theorem Takes.append (h : Takes P xs rs Q) (h' : Takes Q ys rs' R) : Takes P (xs ++ ys) (rs ++ rs') R := by
  intro s rest hf hp hP
  obtain ⟨t, ht, hQ⟩ := h s (feed ys ++ rest) hf (by rw [hp, feed_append, List.append_assoc]) hP
  obtain ⟨u, hu, hR⟩ := h' t rest (ht.fault.trans hf) ht.port hQ
  refine ⟨u, ⟨?_, hu.port, ?_, hu.q.trans ht.q, hu.fault.trans ht.fault, hu.refusal.trans ht.refusal⟩, hR⟩
  · rw [List.length_append, runSteps_add ht.run, hu.run]
  · rw [hu.responses, ht.responses, List.append_assoc]

theorem Takes.weaken (h : Takes P xs rs Q) (hQ : ∀ t, Q t → R t) : Takes P xs rs R := fun s rest hf hp hP =>
  let ⟨t, ht, hq⟩ := h s rest hf hp hP
  ⟨t, ht, hQ t hq⟩

/-- One byte is one transition of the deframer (40_deframer.md R91). -/
theorem Takes.byte {b : Byte} {r : Response} (hP : OfBlockState P)
    (h : ∀ s, P s → ∃ t, feedByte b s = .next t ∧ t.responses = s.responses ++ [r] ∧ Q t) : Takes P [b] [r] Q := by
  intro s rest hf hp hPs
  obtain ⟨t, ht, hresp, hQ⟩ := h { s with port := rest, issuer := .worker } (hP s _ _ _ _ hPs)
  obtain ⟨_, _, hport, _, hfault, hrefusal⟩ := ruleOf_frame (i := .decByte b) ht
  have hq := ruleOf_deframer_q (i := .decByte b) rfl ht
  exact ⟨t, ⟨runSteps_succ_of_next ((step_feed hp hf).trans ht), hport, hresp, hq, hfault, hrefusal⟩, hQ⟩

end

/-! Scanning for the sync bytes (40_deframer.md R92, R93). -/

/-- The decoder state is `d`, and `B` holds of `DBUF`. -/
def At (B : List Host.Cell → Prop) (d : DState) (s : State) : Prop := s.dstate = d ∧ B s.dbuf

theorem at_ofBlockState (B : List Host.Cell → Prop) (d : DState) : OfBlockState (At B d) := fun _ _ _ _ _ h => h

/-- The decoder state outside a frame, after the byte `a`. -/
def scanState (a : Byte) : DState := if a = Config.sync0 then .syncMark else .desync

section

variable (B : List Host.Cell → Prop)

/-- Outside a frame, only the second byte of a pair `CC AA` leaves the scan. -/
theorem takes_scan {a b : Byte} (h : ¬(a = Config.sync0 ∧ b = Config.sync1)) :
    Takes (At B (scanState a)) [b] [.none] (At B (scanState b)) := by
  refine .byte (at_ofBlockState B _) fun s ⟨hd, hB⟩ => ?_
  by_cases ha : a = Config.sync0
  · have hb : b ≠ Config.sync1 := fun hb => h ⟨ha, hb⟩
    exact ⟨_, feedByte_syncMark (hd.trans (if_pos ha)), rfl, if_neg hb, hB⟩
  · exact ⟨_, feedByte_desync (hd.trans (if_neg ha)), rfl, rfl, hB⟩

theorem takes_sync0 (a : Byte) : Takes (At B (scanState a)) [Config.sync0] [.none] (At B .syncMark) :=
  takes_scan B (b := Config.sync0) fun h => absurd h.2 (by decide)

theorem takes_sync1 : Takes (At B .syncMark) [Config.sync1] [.none] (At B .synced) :=
  .byte (at_ofBlockState B _) fun _ ⟨hd, hB⟩ => ⟨_, feedByte_syncMark hd, rfl, rfl, hB⟩

/-- Noise without the pair `CC AA`, the byte before it counted, is discarded (40_deframer.md R103). -/
theorem takes_noise {a : Byte} {n : List Byte} (h : noSyncPair (a :: n) = true) :
    Takes (At B (scanState a)) n (List.replicate n.length .none) (At B (scanState (n.getLastD a))) := by
  induction n generalizing a with
  | nil => exact .nil
  | cons b n ih =>
    obtain ⟨hab, hn⟩ : ¬(a = Config.sync0 ∧ b = Config.sync1) ∧ noSyncPair (b :: n) = true := by
      simpa [noSyncPair, imp_iff_not_or] using h
    rw [List.getLastD_cons]
    exact (takes_scan B hab).append (ih hn)

end

/-- A `Desync` state is one after a byte other than `CC`, so that any noise can follow. -/
theorem noSyncPair_zero_cons {n : List Byte} (h : noSyncPair n = true) : noSyncPair (0 :: n) = true := by
  cases n with
  | nil => rfl
  | cons b n => simpa [noSyncPair, Config.sync0] using h

theorem noSyncPair_replicate_sync0 (n : Nat) : noSyncPair (List.replicate n Config.sync0) = true := by
  induction n with
  | zero => rfl
  | succ n ih =>
    cases n with
    | zero => rfl
    | succ n => simpa [List.replicate_succ, noSyncPair, Config.sync0, Config.sync1] using ih

/-- Any run of `CC` followed by `AA` synchronises (40_deframer.md R93). -/
theorem takes_sync (B : List Host.Cell → Prop) (n : Nat) :
    Takes (At B .desync) (List.replicate (n + 1) Config.sync0 ++ [Config.sync1]) (List.replicate (n + 2) .none)
      (At B .synced) := by
  have hscan := takes_noise B (noSyncPair_zero_cons (noSyncPair_replicate_sync0 (n + 1)))
  rw [List.length_replicate, show (List.replicate (n + 1) Config.sync0).getLastD 0 = Config.sync0 by
    simp [List.getLastD_eq_getLast?, List.getLast?_replicate]] at hscan
  rw [List.replicate_succ' (n := n + 1)]
  exact hscan.append (takes_sync1 B)

/-- Settles O4: the row of `SyncMark`, and `takes_sync`. -/
theorem syncMarkConfirmsRearmsOrFallsBack : Obligations.SyncMarkConfirmsRearmsOrFallsBack := by
  refine ⟨fun b s hf hi hd => (exec_decByte hf hi b).trans (feedByte_syncMark hd), fun n s rest hf hd hp => ?_⟩
  obtain ⟨t, ht, hsynced, _⟩ := takes_sync (fun _ => True) n s rest hf hp ⟨hd, trivial⟩
  have hrun := ht.run
  simp only [List.length_append, List.length_replicate, List.length_singleton] at hrun
  exact ⟨t, hrun, hsynced, ht.port, ht.responses⟩

/-! Inside a frame (40_deframer.md R94 to R99). -/

/-- The decoder state is `d`, and `DBUF` is in canonical form. -/
abbrev SoundAt (d : DState) : State → Prop := At (fun m => Memory.wf m = true) d

/-- The payload bytes `xs` of a frame of declared length `l` have been accumulated. -/
def Accumulated (l : Byte) (xs : List Byte) (s : State) : Prop :=
  s.dstate = (if xs.length = l.toNat then .verifyChecksum else .reading) ∧ s.dlen = l ∧ s.dcnt.toNat = xs.length ∧
    Memory.wf s.dbuf = true ∧ Memory.prefixBytes s.dbuf xs.length = xs

theorem accumulated_ofBlockState (l : Byte) (xs : List Byte) : OfBlockState (Accumulated l xs) := fun _ _ _ _ _ h => h

/-- A frame has ended: `Desync` with an empty accumulator (40_deframer.md R98). -/
def FrameEnded (s : State) : Prop := SoundAt .desync s ∧ s.dlen = 0 ∧ s.dcnt = 0

/-- The length byte begins an empty accumulator (40_deframer.md R94). -/
theorem takes_length (l : Byte) : Takes (SoundAt .synced) [l] [.none] (Accumulated l []) := by
  refine .byte (at_ofBlockState _ _) fun s ⟨hd, hwf⟩ => ⟨_, feedByte_synced hd, rfl, ?_, rfl, rfl, hwf, rfl⟩
  have hzero : l = 0 ↔ 0 = l.toNat := by rw [← BitVec.toNat_inj]; exact eq_comm
  rw [State.respond_dstate, byteInSynced_dstate]
  simp only [hzero, List.length_nil]

/-- A byte stored at the next index makes the bytes read there one longer. -/
theorem Memory.prefixBytes_put {m : List Host.Cell} (hm : Memory.wf m = true) (n : Nat) (b : Byte) :
    Memory.prefixBytes (Memory.put m n b) (n + 1) = Memory.prefixBytes m n ++ [b] := by
  rw [Memory.prefixBytes_succ, Memory.byteAt_put hm, if_pos rfl]
  congr 1
  exact Memory.prefixBytes_congr fun k hk => (Memory.byteAt_put hm n b k).trans (if_neg hk.ne)

/-- A payload byte joins those accumulated (40_deframer.md R95). -/
theorem takes_payloadByte {l : Byte} {xs : List Byte} (hlt : xs.length < l.toNat) (b : Byte) :
    Takes (Accumulated l xs) [b] [.none] (Accumulated l (xs ++ [b])) := by
  refine .byte (accumulated_ofBlockState _ _) fun s ⟨hd, hlen, hcnt, hwf, hxs⟩ => ?_
  have hc : s.dcnt.toNat < 255 := by have := l.isLt; omega
  have hwf' := Memory.wf_write hwf (Memory.write_some b hc)
  refine ⟨_, feedByte_reading (hd.trans (if_neg hlt.ne)) hc, rfl, ?_, hlen, ?_, hwf', ?_⟩
  · rw [State.respond_dstate, byteInReading_dstate]
    simp only [add_one_eq_iff hc, hlen, hcnt, List.length_append, List.length_singleton]
  · rw [State.respond_dcnt, byteInReading_dcnt, toNat_add_one_of_lt hc, hcnt, List.length_append, List.length_singleton]
  · rw [List.length_append, List.length_singleton, State.respond_dbuf, byteInReading_dbuf, hcnt,
      Memory.prefixBytes_put hwf, hxs]

/-- Bytes up to the declared length are accumulated, whatever they are (40_deframer.md R99). -/
theorem takes_payload {l : Byte} {ys xs : List Byte} (h : xs.length + ys.length ≤ l.toNat) :
    Takes (Accumulated l xs) ys (List.replicate ys.length .none) (Accumulated l (xs ++ ys)) := by
  induction ys generalizing xs with
  | nil => rw [List.append_nil]; exact .nil
  | cons y ys ih =>
    rw [List.length_cons] at h
    have hrest := ih (xs := xs ++ [y]) (by rw [List.length_append, List.length_singleton]; omega)
    rw [List.append_assoc, List.singleton_append] at hrest
    exact (takes_payloadByte (by omega) y).append hrest

/-- The checksum byte ends the frame with its verdict (40_deframer.md R96 to R98). -/
theorem takes_checksum {l : Byte} {p : List Byte} (h : p.length = l.toNat) (c : Byte) :
    Takes (Accumulated l p) [c] [verdictOn l p c] FrameEnded := by
  refine .byte (accumulated_ofBlockState _ _) fun s ⟨hd, hlen, _, hwf, hp⟩ => ?_
  refine ⟨_, feedByte_verifyChecksum (hd.trans (if_pos h)), ?_, ⟨rfl, hwf⟩, rfl, rfl⟩
  rw [State.respond_responses, verdict_eq_verdictOn, hlen, ← h, hp]
  rfl

/-- Once synchronised, the length byte says how many bytes are taken (40_deframer.md R99). -/
theorem takes_synchronised {l : Byte} {p : List Byte} (h : p.length = l.toNat) (c : Byte) :
    Takes (SoundAt .synced) (l :: (p ++ [c])) (List.replicate (p.length + 1) .none ++ [verdictOn l p c]) FrameEnded :=
  (takes_length l).append ((takes_payload (xs := []) (by simp [h])).append (takes_checksum h c))

/-- Settles O13: the bytes after synchronisation, with their verdict. -/
theorem synchronisedFrameConsumesItsBytes : Obligations.SynchronisedFrameConsumesItsBytes := by
  intro l c bytes s rest hf hd hwf hlen hp
  obtain ⟨t, ht, ⟨hdesync, _⟩, hdlen, hdcnt⟩ := takes_synchronised hlen c s rest hf hp ⟨hd, hwf⟩
  have hrun := ht.run
  have hresp := ht.responses
  rw [show (l :: (bytes ++ [c])).length = l.toNat + 2 by simp [hlen]] at hrun
  rw [hlen] at hresp
  exact ⟨t, hrun, hdesync, hdlen, hdcnt, ht.port, hresp⟩

/-! Whole frames (40_deframer.md R102). -/

/-- A frame is delivered from every state outside a frame, after whatever byte. -/
theorem takes_frameOf {p : List Byte} (hp : p.length ≤ 255) (a : Byte) :
    Takes (SoundAt (scanState a)) (frameOf p) (List.replicate (p.length + 3) .none ++ [.deliver p]) FrameEnded := by
  have hframe := takes_synchronised (lengthByte_toNat hp).symm (csum8 (BitVec.ofNat 8 p.length) p)
  rw [verdictOn_csum8] at hframe
  exact (takes_sync0 _ a).append ((takes_sync1 _).append hframe)

/-- What `ENC.P` answers as data is the frame of a payload that fits its length byte (41_framer.md R121). -/
theorem frameOf_of_exec_encP {p f : List Byte} {s t : State} (h : exec (.encP p) s = .next t)
    (hresp : t.responses = s.responses ++ [.data f]) : p.length ≤ 255 ∧ f = frameOf p := by
  obtain ⟨_, rfl⟩ | ⟨_, _, hr⟩ | ⟨_, _, rfl⟩ := exec_cases h
  · simp at hresp
  · cases hr
    by_cases hp : p.length ≤ 255
    · rw [framePayload_ok hp] at hresp
      simp only [State.respondResult, State.respond_responses, List.append_cancel_left_eq, List.cons.injEq,
        Response.data.injEq, and_true] at hresp
      exact ⟨hp, hresp.symm⟩
    · rw [framePayload_tooLong (by omega)] at hresp
      simp [State.respondResult] at hresp
  · simp at hresp

/-- Settles O11: `Desync` and `SyncMark` are the states outside a frame, after `00` and after `CC`. -/
theorem roundTripDeliversThePayload : Obligations.RoundTripDeliversThePayload := by
  intro p f s u v rest hexec hdata hf hd hwf hport
  obtain ⟨hp, rfl⟩ := frameOf_of_exec_encP hexec hdata
  obtain ⟨a, ha⟩ : ∃ a, s.dstate = scanState a := hd.elim (fun h => ⟨0, h⟩) (fun h => ⟨Config.sync0, h⟩)
  obtain ⟨t, ht, ⟨hdesync, _⟩, hdlen, hdcnt⟩ := takes_frameOf hp a s rest hf hport ⟨ha, hwf⟩
  have hresp := ht.responses
  rw [show p.length + 3 = (frameOf p).length - 1 by simp] at hresp
  exact ⟨t, ht.run, hresp, hdesync, hdlen, hdcnt, ht.q, ht.fault.trans hf, ht.refusal, ht.port⟩

/-! Frames in noise (40_deframer.md R103). -/

@[simp] theorem deliveries_append (rs rs' : List Response) : deliveries (rs ++ rs') = deliveries rs ++ deliveries rs' :=
  List.filterMap_append

@[simp] theorem deliveries_replicate_none (n : Nat) : deliveries (List.replicate n .none) = [] := by
  simp [deliveries]

@[simp] theorem deliveries_deliver (p : List Byte) : deliveries [.deliver p] = [p] := rfl

/-- A valid frame is the frame of its payload, which fits the length byte (30_encoding.md R60, R62). -/
theorem eq_frameOf_of_validFrame {f : List Byte} (h : validFrame f = true) :
    (payloadOf f).length ≤ 255 ∧ f = frameOf (payloadOf f) := by
  match f with
  | [] | [_] | [_, _] => simp [validFrame] at h
  | s0 :: s1 :: n :: rest =>
    obtain ⟨rfl, rfl, hlen, hcsum⟩ := (validFrame_cons_eq_true s0 s1 n rest).mp h
    obtain ⟨p, c, rfl⟩ : ∃ p c, rest = p ++ [c] :=
      ⟨_, _, (List.dropLast_concat_getLast (by rintro rfl; simp at hlen)).symm⟩
    have hp : p.length = n.toNat := by simpa using hlen
    have hn : BitVec.ofNat 8 p.length = n := by rw [hp, BitVec.ofNat_toNat, BitVec.setWidth_eq]
    have hpay : payloadOf (0xCC :: 0xAA :: n :: (p ++ [c])) = p := by simp [payloadOf]
    have hc : c = csum8 n p := by simpa [← hp] using hcsum
    have := n.isLt
    rw [hpay, frameOf, hn, hc]
    exact ⟨by omega, rfl⟩

/-- A valid frame after noise without the pair `CC AA` is delivered, and nothing else (40_deframer.md R103). -/
theorem takes_noise_frame {n f : List Byte} (hn : noSyncPair n = true) (hf : validFrame f = true) :
    ∃ rs, deliveries rs = [payloadOf f] ∧ Takes (SoundAt .desync) (n ++ f) rs (SoundAt .desync) := by
  obtain ⟨hp, hframe⟩ := eq_frameOf_of_validFrame hf
  have htakes := (takes_noise _ (noSyncPair_zero_cons hn)).append ((takes_frameOf hp _).weaken fun _ => And.left)
  rw [← hframe] at htakes
  exact ⟨_, by simp, htakes⟩

/-- Settles O12: twice noise and a frame, then noise; and the frame of the empty payload, which the pair before it makes
the payload and checksum of a longer one. -/
theorem framesInNoiseAreDelivered : Obligations.FramesInNoiseAreDelivered := by
  refine ⟨fun n0 f1 n1 f2 n2 s hf hd hwf hn0 hn1 hn2 hf1 hf2 hp => ?_, ?_⟩
  · obtain ⟨rs1, hrs1, h1⟩ := takes_noise_frame hn0 hf1
    obtain ⟨rs2, hrs2, h2⟩ := takes_noise_frame hn1 hf2
    have htakes := (h1.append h2).append (takes_noise _ (noSyncPair_zero_cons hn2))
    rw [show n0 ++ f1 ++ (n1 ++ f2) ++ n2 = n0 ++ f1 ++ n1 ++ f2 ++ n2 by simp] at htakes
    obtain ⟨t, ht, _⟩ := htakes s [] hf (by rw [hp, List.append_nil]) ⟨hd, hwf⟩
    refine ⟨t, ht.run, ht.port, ?_⟩
    rw [ht.responses, List.drop_left, deliveries_append, deliveries_append, hrs1, hrs2, deliveries_replicate_none]
    rfl
  · exact ⟨[Config.sync0, Config.sync1, 3], frameOf [],
      { State.reset with port := feed ([Config.sync0, Config.sync1, 3] ++ frameOf []) }, _,
      by decide, by decide, rfl, rfl, rfl, rfl, by decide⟩

end Sys2Proof.Machine
end

section
/-! PROOFS. The framer's responses (41_framer.md R121, R122, R124 to R126). -/

namespace Sys2Proof.Machine

/-- The response a framer result is answered with (30_encoding.md R70). -/
def responseOf : Except ErrorKind (List Byte) → Response
  | .ok bytes => .data bytes
  | .error k => .error k

theorem respondResult_eq_respond (s : State) (x : Except ErrorKind (List Byte)) :
    s.respondResult x = s.respond (responseOf x) := by
  cases x <;> rfl

theorem responseOf_framePayload (p : List Byte) :
    responseOf (framePayload p) = if p.length ≤ 255 then .data (frameOf p) else .error .payloadTooLong := by
  split
  case isTrue hp => rw [framePayload_ok hp, responseOf]
  case isFalse hp => rw [framePayload_tooLong (by omega), responseOf]

/-- Every agent may issue the framer's commands (41_framer.md R126). -/
theorem exec_framer {i : Instr} {s : State} (hi : isFramerCommand i = true) (hf : s.fault = 0) :
    exec i s = ruleOf i s := by
  refine exec_of_allowed hf ?_
  cases i with
  | encP _ | encF _ | encHp _ | encHf _ => exact anyAgent_true _
  | _ => cases hi

/-- Settles O16: the response is that of `framePayload`. -/
theorem encPFramesOrRejectsPayload : Obligations.EncPFramesOrRejectsPayload := by
  intro p s hf
  rw [exec_framer rfl hf, ruleOf, respondResult_eq_respond, responseOf_framePayload]
  rfl

/-- Settles O19: any agent may issue the command, whose rule answers the operand. -/
theorem encFPassesThrough : Obligations.EncFPassesThrough :=
  fun _ _ hf => exec_framer rfl hf

/-- Settles O21: once the text has decoded, the response is that of `framePayload`. -/
theorem encHpDecodesThenFrames : Obligations.EncHpDecodesThenFrames := by
  intro x s hf
  rw [exec_framer rfl hf, ruleOf, respondResult_eq_respond, frameHexPayload]
  cases hexDecode x with
  | error k => rfl
  | ok p =>
    simp only [responseOf_framePayload]
    rfl

/-- Settles O22: the response is that of `hexDecode`. -/
theorem encHfDecodesAndPassesThrough : Obligations.EncHfDecodesAndPassesThrough := by
  intro x s hf
  rw [exec_framer rfl hf, ruleOf, respondResult_eq_respond]
  cases hexDecode x <;> rfl

/-- Settles O23: the four commands' responses, each a function of the operand. -/
theorem framerReadsAndWritesNoState : Obligations.FramerReadsAndWritesNoState := by
  intro i hi
  cases i with
  | encP p => exact ⟨_, encPFramesOrRejectsPayload p⟩
  | encF f => exact ⟨_, encFPassesThrough f⟩
  | encHp x => exact ⟨_, encHpDecodesThenFrames x⟩
  | encHf x => exact ⟨_, encHfDecodesAndPassesThrough x⟩
  | _ => cases hi

end Sys2Proof.Machine
end

section
/-! PROOFS. The frame of a payload is valid and its bytes sum to 0 (30_encoding.md R62; 41_framer.md R121, R127). -/

namespace Sys2Proof.Machine

/-- A payload that fits the length byte has a valid frame (30_encoding.md R62). -/
theorem validFrame_frameOf {p : List Byte} (hp : p.length ≤ 255) : validFrame (frameOf p) = true := by
  rw [frameOf, validFrame_cons_eq_true, lengthByte_toNat hp]
  exact ⟨rfl, rfl, by simp, by simp⟩

@[simp] theorem payloadOf_frameOf (p : List Byte) : payloadOf (frameOf p) = p := by
  simp [payloadOf, frameOf]

/-- Settles O18: what `ENC.P` answers as data is `frameOf p`. -/
theorem encPResultIsValidFrame : Obligations.EncPResultIsValidFrame := by
  intro p f s t _ hexec hresp
  obtain ⟨hp, rfl⟩ := frameOf_of_exec_encP hexec hresp
  exact ⟨validFrame_frameOf hp, frameOf_length p, payloadOf_frameOf p⟩

theorem frameOf_getLast? (p : List Byte) :
    (frameOf p).getLast? = some (csum8 (BitVec.ofNat 8 p.length) p) :=
  List.getLast?_concat (l := _ :: _ :: _ :: p)

theorem frameOf_take_three (p : List Byte) :
    (frameOf p).take 3 = [Config.sync0, Config.sync1, BitVec.ofNat 8 p.length] := rfl

/-- A change of one payload byte by `+d` changes the checksum by `-d` (41_framer.md R127). -/
theorem csum8_set_add (n : Byte) (p : List Byte) {k : Nat} (hk : k < p.length) (d : Byte) :
    csum8 n (p.set k (p[k] + d)) = csum8 n p - d := by
  rw [csum8_eq_neg_sum, csum8_eq_neg_sum, List.sum_set', dif_pos hk]
  abel

/-- Settles O24: the last byte is the checksum, which completes the sum (`eq_csum8_iff`) and follows a change
(`csum8_set_add`). -/
theorem checksumLawOfFrames : Obligations.ChecksumLawOfFrames := by
  intro p _
  refine ⟨⟨_, _, rfl, frameOf_getLast? p, eq_csum8_iff.mp rfl⟩, fun k hk d => ⟨_, frameOf_getLast? p, ?_, ?_⟩⟩
  · rw [frameOf_getLast?, List.length_set, csum8_set_add]
  · rw [frameOf_take_three, frameOf_take_three, List.length_set]

end Sys2Proof.Machine
end

section
/-! PROOFS. Hex text (41_framer.md R123). -/

namespace Sys2Proof.Machine

/-- The characters of the three ranges, with their values (41_framer.md R123). -/
theorem hexVal_eq_some_iff {c v : Byte} : hexVal c = some v ↔
    (0x30 ≤ c.toNat ∧ c.toNat ≤ 0x39 ∧ v.toNat = c.toNat - 0x30) ∨
    (0x61 ≤ c.toNat ∧ c.toNat ≤ 0x66 ∧ v.toNat = c.toNat - 0x61 + 10) ∨
    (0x41 ≤ c.toNat ∧ c.toNat ≤ 0x46 ∧ v.toNat = c.toNat - 0x41 + 10) := by
  unfold hexVal
  simp only [BitVec.le_def, BitVec.reduceToNat]
  split_ifs
  case neg => simp; omega
  all_goals rw [Option.some.injEq]; bv_omega

theorem hexVal_lt {c v : Byte} (h : hexVal c = some v) : v.toNat < 16 := by
  have := hexVal_eq_some_iff.mp h
  omega

/-- A pair of characters decodes to one byte, the first character the high nibble (41_framer.md R123). -/
theorem hexPairs_cons_cons_eq_some_iff {hi lo b : Byte} {t p : List Byte} :
    hexPairs (hi :: lo :: t) = some (b :: p) ↔
      (∃ h l, hexVal hi = some h ∧ hexVal lo = some l ∧ b.toNat = 16 * h.toNat + l.toNat) ∧ hexPairs t = some p := by
  rw [hexPairs]
  split
  next h l bytes hh hl ht =>
    have hbyte : 16 * h + l = b ↔ b.toNat = 16 * h.toNat + l.toNat := by
      have := hexVal_lt hh
      have := hexVal_lt hl
      bv_omega
    simp [hh, hl, ht, ← hbyte]
  next hno =>
    refine iff_of_false nofun ?_
    rintro ⟨⟨h, l, hh, hl, _⟩, ht⟩
    exact hno h l p hh hl ht

theorem hexPairs_cons_cons_eq_none_iff {hi lo : Byte} {t : List Byte} :
    hexPairs (hi :: lo :: t) = none ↔ hexVal hi = none ∨ hexVal lo = none ∨ hexPairs t = none := by
  rw [hexPairs]
  cases hexVal hi with
  | none => simp
  | some h =>
    cases hexVal lo with
    | none => simp
    | some l => cases hexPairs t <;> simp

theorem hexPairs_cons_cons_ne_nil {hi lo : Byte} {t : List Byte} : hexPairs (hi :: lo :: t) ≠ some [] := by
  rw [hexPairs]
  split <;> simp

/-- Byte `k` of `p` is decoded from the pair of characters at `2k` in `t` (41_framer.md R123). -/
def HexPairAt (t p : List Byte) (k : Nat) : Prop :=
  ∃ h l hc lc b, t[2 * k]? = some hc ∧ t[2 * k + 1]? = some lc ∧ p[k]? = some b ∧
    hexVal hc = some h ∧ hexVal lc = some l ∧ b.toNat = 16 * h.toNat + l.toNat

theorem hexPairAt_zero {hi lo b : Byte} {t p : List Byte} : HexPairAt (hi :: lo :: t) (b :: p) 0 ↔
    ∃ h l, hexVal hi = some h ∧ hexVal lo = some l ∧ b.toNat = 16 * h.toNat + l.toNat := by
  simp [HexPairAt]

theorem hexPairAt_succ {hi lo b : Byte} {t p : List Byte} {k : Nat} :
    HexPairAt (hi :: lo :: t) (b :: p) (k + 1) ↔ HexPairAt t p k := by
  simp [HexPairAt, Nat.mul_succ]

/-- Text decodes pair by pair, and only to this payload (41_framer.md R123). -/
theorem hexPairs_eq_some_iff {t p : List Byte} :
    hexPairs t = some p ↔ t.length = 2 * p.length ∧ ∀ k, k < p.length → HexPairAt t p k := by
  induction t using List.twoStepInduction generalizing p with
  | nil => cases p <;> simp [hexPairs]
  | singleton c => simp [hexPairs]; omega
  | cons_cons hi lo t ih _ =>
    cases p with
    | nil => simp [hexPairs_cons_cons_ne_nil]
    | cons b p =>
      have hlen : (hi :: lo :: t).length = 2 * (b :: p).length ↔ t.length = 2 * p.length := by
        simp only [List.length_cons]
        omega
      rw [hexPairs_cons_cons_eq_some_iff, ih, hlen, List.length_cons, Nat.forall_lt_succ_left, hexPairAt_zero]
      simp only [hexPairAt_succ, and_left_comm]

/-- Text that is no sequence of pairs of hex digits does not decode (41_framer.md R123). -/
theorem hexPairs_eq_none_iff {t : List Byte} : hexPairs t = none ↔ t.length % 2 = 1 ∨ ∃ c ∈ t, hexVal c = none := by
  induction t using List.twoStepInduction with
  | nil => simp [hexPairs]
  | singleton c => simp [hexPairs]
  | cons_cons hi lo t ih _ =>
    rw [hexPairs_cons_cons_eq_none_iff, ih]
    simp [or_left_comm, Nat.add_assoc]

theorem hexDecode_eq_ok_iff {t p : List Byte} : hexDecode t = .ok p ↔ hexPairs t = some p := by
  rw [hexDecode]
  cases hexPairs t <;> simp

theorem hexDecode_eq_error_iff {t : List Byte} : hexDecode t = .error .invalidEncoding ↔ hexPairs t = none := by
  rw [hexDecode]
  cases hexPairs t <;> simp

/-- Settles O20: the values of the characters, then the pairs by induction over the text. -/
theorem hexTextDecodesOrIsInvalid : Obligations.HexTextDecodesOrIsInvalid :=
  ⟨fun _ _ => hexVal_eq_some_iff, fun _ _ => hexDecode_eq_ok_iff.trans hexPairs_eq_some_iff,
    fun _ => hexDecode_eq_error_iff.trans hexPairs_eq_none_iff⟩

end Sys2Proof.Machine
end

section
/-! PROOFS. The commands of the FIFO (42_fifo.md R140 to R149), and its entries over a run (R145). -/

namespace Sys2Proof.Machine

/-- Settles O29: what a run conserves, `runSteps_conserves`, with the responses given before it dropped. -/
theorem fifoConservesEntriesInOrder : Obligations.FifoConservesEntriesInOrder := by
  intro ins rest s t hf hp hkeep h
  obtain ⟨rs, hresp, hcons⟩ := runSteps_conserves hf hp hkeep h
  rw [hresp, List.drop_left]
  exact hcons

/-- Every agent may enqueue, so with no fault `Q.ENQ` is the enqueue of its realization (42_fifo.md R140). -/
theorem execIn_qEnq {s : State} (hf : s.fault = 0) (lim : Config.Limits) (bytes : List Byte) (now : Config.TS) :
    execIn lim (.qEnq bytes now) s = .next (enqueue lim bytes now s) :=
  performed_of_allowed (rule := fun u => .next (enqueue lim bytes now u)) hf (anyAgent_true _)

/-- Settles O26: this hardware's enqueue has no limit to meet. -/
theorem enqueueAppendsEntry : Obligations.EnqueueAppendsEntry := fun bytes now _ hf =>
  execIn_qEnq hf Config.limits bytes now

theorem dequeue_of_nil {s : State} (h : s.q = []) : dequeue s = s.respond .empty := by
  rw [dequeue, h]

theorem dequeue_of_cons {s : State} {e : Entry} {rest : List Entry} (h : s.q = e :: rest) :
    dequeue s = (s.withFifo rest).respond (.entry e.ts e.bytes) := by
  rw [dequeue, h]

/-- Settles O27: the two cases of `dequeue`. -/
theorem dequeueReturnsOldestOrEmpty : Obligations.DequeueReturnsOldestOrEmpty := by
  intro s hf hi
  have hexec : exec .qDeq s = .next (dequeue s) := exec_of_allowed hf (hi ▸ workerOnly_worker)
  exact ⟨fun hq => hexec.trans (congrArg _ (dequeue_of_nil hq)),
    fun _ _ hq => hexec.trans (congrArg _ (dequeue_of_cons hq))⟩

/-- Settles O28: the rule of `Q.CLR`. -/
theorem clearDiscardsEveryEntry : Obligations.ClearDiscardsEveryEntry := fun _ hf hi =>
  exec_of_allowed hf (hi ▸ workerOnly_worker)

/-- Settles O33: a full FIFO is the first thing an enqueue asks for. -/
theorem fullFiniteFifoOverflows : Obligations.FullFiniteFifoOverflows := by
  intro cap most bytes now s hf hcap
  have hfull : fifoFull { qcap := some cap, qmaxb := most } s.q = true := decide_eq_true hcap
  rw [execIn_qEnq hf, enqueue, if_pos hfull]
  rfl

/-- A FIFO with room left is not full (42_fifo.md R148). -/
theorem fifoFull_of_room {lim : Config.Limits} {q : List Entry} (h : ∀ n, lim.qcap = some n → q.length < n) :
    fifoFull lim q = false := by
  unfold fifoFull
  split
  next n hn => exact decide_eq_false (h n hn).ne
  next => rfl

/-- Settles O34: with room in the FIFO, the entry's size decides. -/
theorem overlongEntryFaults : Obligations.OverlongEntryFaults := by
  intro cap most bytes now s hf hroom
  have hfull : fifoFull { qcap := cap, qmaxb := some most } s.q = false := fifoFull_of_room hroom
  have hlong : entryTooLong { qcap := cap, qmaxb := some most } bytes = true ↔ most < bytes.length :=
    decide_eq_true_iff
  rw [execIn_qEnq hf, enqueue, if_neg (Bool.eq_false_iff.mp hfull)]
  simp only [hlong]
  rfl

end Sys2Proof.Machine
end

section
/-! PROOFS. Timestamps are only carried (42_fifo.md R147): every operation, and so every step, commutes with replacing
each timestamp by a function of it. -/

namespace Sys2Proof

/-- The `now` of a `Q.ENQ` replaced; no other command reads it (30_encoding.md R68). -/
def Instr.mapTime (f : Config.TS → Config.TS) : Instr → Instr
  | .qEnq bytes now => .qEnq bytes (f now)
  | i => i

theorem plainWord_mapTime (f : Config.TS → Config.TS) (w : Word) (i : Instr) :
    plainWord w (i.mapTime f) = (plainWord w i).map (Instr.mapTime f) := by
  unfold plainWord
  split <;> rfl

theorem decodeEnc_mapTime (f : Config.TS → Config.TS) (w : Word) (opnd : List Byte) :
    decodeEnc w opnd = (decodeEnc w opnd).map (Instr.mapTime f) := by
  unfold decodeEnc
  split
  · cases hField w <;> cases fField w <;> rfl
  · rfl

/-- The decoder puts the timestamp into the command and does not look at it (30_encoding.md R68). -/
theorem decode_mapTime (f : Config.TS → Config.TS) (w : Word) (opnd : List Byte) (now : Config.TS) :
    decode w opnd (f now) = (decode w opnd now).map (Instr.mapTime f) := by
  unfold decode
  split_ifs
  · rfl
  · rfl
  · exact plainWord_mapTime f w .decReset
  · exact decodeEnc_mapTime f w opnd
  · exact plainWord_mapTime f w (.qEnq opnd now)
  · exact plainWord_mapTime f w .qDeq
  · exact plainWord_mapTime f w .qClr
  · exact plainWord_mapTime f w .blkReset
  · rfl

end Sys2Proof

namespace Sys2Proof.Machine

/-- The timestamp of an `ENTRY` response replaced (30_encoding.md R70). -/
def Response.mapTime (f : Config.TS → Config.TS) : Response → Response
  | .entry t bytes => .entry (f t) bytes
  | r => r

@[simp] theorem mayIssue_mapTime (f : Config.TS → Config.TS) (a : Agent) (i : Instr) :
    mayIssue a (i.mapTime f) = mayIssue a i := by
  cases i <;> rfl

theorem State.mapTime_respond (f : Config.TS → Config.TS) (s : State) (r : Response) :
    (s.respond r).mapTime f = (s.mapTime f).respond (r.mapTime f) := by
  simp only [State.mapTime, State.respond, List.map_append]
  rfl

theorem State.mapTime_pushEntry (f : Config.TS → Config.TS) (s : State) (e : Entry) :
    (s.pushEntry e).mapTime f = (s.mapTime f).pushEntry { e with ts := f e.ts } := by
  simp only [State.mapTime, State.pushEntry, State.withFifo, List.map_append]
  rfl

/-- A framer result is no entry (41_framer.md R126). -/
theorem State.mapTime_respondResult (f : Config.TS → Config.TS) (s : State) (x : Except ErrorKind (List Byte)) :
    (s.respondResult x).mapTime f = (s.mapTime f).respondResult x := by
  cases x <;> exact s.mapTime_respond f _

/-- The checksum byte is answered with no entry (40_deframer.md R96, R97). -/
theorem verdict_mapTime (f : Config.TS → Config.TS) (b : Byte) (s : State) :
    verdict b (s.mapTime f) = (verdict b s).mapTime f := by
  obtain ⟨_, hv⟩ | ⟨_, hv⟩ := verdict_cases b s <;> rw [hv] <;> exact hv

/-- The oldest entry carries its timestamp into the response (42_fifo.md R142). -/
theorem State.mapTime_dequeue (f : Config.TS → Config.TS) (s : State) :
    (dequeue s).mapTime f = dequeue (s.mapTime f) := by
  obtain ⟨_, _, _, _, q⟩ := s
  cases q <;> exact State.mapTime_respond f _ _

/-- Each row of the deframer's table leaves timestamps alone (40_deframer.md R90). -/
theorem feedByte_mapTime {b : Byte} {s t : State} (f : Config.TS → Config.TS) (h : feedByte b s = .next t) :
    feedByte b (s.mapTime f) = .next (t.mapTime f) := by
  obtain ⟨hd, rfl⟩ | ⟨hd, rfl⟩ | ⟨hd, rfl⟩ | ⟨hd, m, hm, rfl⟩ | ⟨hd, rfl⟩ := feedByte_cases h <;>
    rw [State.mapTime_respond]
  · exact feedByte_desync hd
  · exact feedByte_syncMark hd
  · exact feedByte_synced hd
  · have hd' : (s.mapTime f).dstate = .reading := hd
    have hm' : Memory.write (s.mapTime f).dbuf (s.mapTime f).dcnt.toNat b = some m := hm
    rw [feedByte, hd']
    simp only [hm']
    rfl
  · rw [← verdict_mapTime]
    exact feedByte_verifyChecksum hd

/-- Each command's rule carries timestamps and reads none. -/
theorem ruleOf_mapTime {i : Instr} {s t : State} (f : Config.TS → Config.TS) (h : ruleOf i s = .next t) :
    ruleOf (i.mapTime f) (s.mapTime f) = .next (t.mapTime f) := by
  cases i with
  | decByte b => exact feedByte_mapTime f h
  | decReset => cases h; rw [State.mapTime_respond]; rfl
  | encP p => cases h; rw [State.mapTime_respondResult]; rfl
  | encF p => cases h; rw [State.mapTime_respond]; rfl
  | encHp x => cases h; rw [State.mapTime_respondResult]; rfl
  | encHf x => cases h; rw [State.mapTime_respondResult]; rfl
  | qEnq bytes now => cases h; rw [enqueue_unbounded, State.mapTime_respond, State.mapTime_pushEntry]; rfl
  | qDeq => cases h; rw [State.mapTime_dequeue]; rfl
  | qClr => cases h; rw [State.mapTime_respond]; rfl
  | blkReset => cases h; rw [State.mapTime_respond]; rfl

/-- Each command carries timestamps and reads none: neither does its fault's answer nor its refusal. -/
theorem exec_mapTime {i : Instr} {s t : State} (f : Config.TS → Config.TS) (h : exec i s = .next t) :
    exec (i.mapTime f) (s.mapTime f) = .next (t.mapTime f) := by
  have hright : mayIssue (s.mapTime f).issuer (i.mapTime f) = mayIssue s.issuer i := mayIssue_mapTime f s.issuer i
  rw [exec_eq_performed]
  obtain ⟨hf, rfl⟩ | ⟨hf, ha, hr⟩ | ⟨hf, ha, rfl⟩ := exec_cases h
  · rw [State.mapTime_respond]
    exact performed_of_fault hf
  · rw [← ruleOf_mapTime f hr]
    exact performed_of_allowed hf (hright.trans ha)
  · exact performed_of_refused hf (hright.trans ha)

/-- An illegal word's answer is no entry (43_control.md R161). -/
theorem execIllegal_mapTime {s t : State} (f : Config.TS → Config.TS) (h : execIllegal s = .next t) :
    execIllegal (s.mapTime f) = .next (t.mapTime f) := by
  rw [execIllegal_eq] at h ⊢
  cases h
  have hf : (s.mapTime f).fault = s.fault := rfl
  rw [hf]
  split
  · exact congrArg _ (s.mapTime_respond f (.error .illegalOp)).symm
  · exact congrArg _ (s.mapTime_respond f (.faulted s.fault)).symm

/-- The next stimulus with its timestamp replaced, and the rest of the port likewise. -/
theorem State.mapTime_port_of_command {s : State} {c : Command} {rest : List Stimulus} (f : Config.TS → Config.TS)
    (h : s.port = .command c :: rest) :
    (s.mapTime f).port = .command { c with now := f c.now } :: (State.mapTime f { s with port := rest }).port :=
  (congrArg (fun port => (State.mapTime f { s with port := port }).port) h :)

/-- Settles O32: the same stimulus, its timestamp replaced, is decoded alike and performed alike. -/
theorem timestampsAreOnlyCarried : Obligations.TimestampsAreOnlyCarried := by
  intro f s t h
  obtain ⟨hp, heq⟩ | ⟨rest, hp, heq⟩ | ⟨c, rest, i, hp, hd, heq⟩ | ⟨c, rest, e, hp, hd, heq⟩ := step_cases s <;>
    rw [heq] at h
  · cases h
    exact step_of_empty (congrArg (List.map _) hp)
  · cases h
    exact step_of_powerOn (congrArg (List.map _) hp)
  · have hd' : decode c.cmd c.opnd (f c.now) = .ok (i.mapTime f) := by rw [decode_mapTime, hd]; rfl
    exact (step_of_legal (State.mapTime_port_of_command f hp) hd').trans (exec_mapTime f h)
  · have hd' : decode c.cmd c.opnd (f c.now) = .error e := by rw [decode_mapTime, hd]; rfl
    exact (step_of_illegal (State.mapTime_port_of_command f hp) hd').trans (execIllegal_mapTime f h)

end Sys2Proof.Machine
end

section
/-! PROOFS. Block control: `BLK.RESET` and the illegal words (43_control.md R160, R161). -/

namespace Sys2Proof.Machine

theorem execAll_cons_of_next {i : Instr} {is : List Instr} {s t : State} (h : exec i s = .next t) :
    execAll (i :: is) s = execAll is t := by
  simp only [execAll, h]

/-- A reset of the deframer and then a clear of the FIFO, with nothing between (70_reset_and_hazards.md R203). -/
theorem execAll_reconnect {s : State} (hf : s.fault = 0) (hi : s.issuer = .worker) :
    execAll reconnect s = .next ((s.clearDeframer.respond .none).clearFifo.respond .none) := by
  rw [reconnect, execAll_cons_of_next (decResetAbandonsPartialFrame s hf hi), execAll_singleton]
  exact clearDiscardsEveryEntry _ hf hi

/-- Settles O36: the two commands write the same state elements as the one, and answer twice. -/
theorem blkResetResetsBothUnits : Obligations.BlkResetResetsBothUnits := by
  intro s hf hi
  have hblk : exec .blkReset s = .next (s.clearDeframer.clearFifo.respond .none) :=
    exec_of_allowed hf (hi ▸ workerOnly_worker)
  exact ⟨hblk, _, execAll_reconnect hf hi, hblk⟩

/-- Settles O37: the decoder refuses the word, and an illegal word asks no agent's right. -/
theorem illegalWordAnswersIllegalOp : Obligations.IllegalWordAnswersIllegalOp := by
  intro c rest s hf hp hw
  obtain ⟨e, hd⟩ := decode_of_not_legalWord hw c.opnd c.now
  have hf' : (({ s with port := rest }).issuedBy c.agent).fault = 0 := hf
  rw [step_of_illegal hp hd, execIllegal_eq, if_pos hf']
  rfl

end Sys2Proof.Machine
end

section
/-! PROOFS. Exceptions (60_exceptions.md): the stuck block, the refused command, the order of the outcomes, and what
stays when nothing is raised or presented. -/

namespace Sys2Proof.Machine

/-- A command of an agent without the right sets the mark and does nothing else (60_exceptions.md R177). -/
theorem exec_of_refused {i : Instr} {s : State} (hf : s.fault = 0) (ha : mayIssue s.issuer i = false) :
    exec i s = .next s.markRefused := by
  rw [exec_eq_performed]
  exact performed_of_refused hf ha

section

variable {s : State} {c : Command} {rest : List Stimulus}

/-- The answer of a faulted block is the same whatever the command's word is, and whatever the limits are
(60_exceptions.md R176). -/
theorem stepIn_of_fault (lim : Config.Limits) (hf : s.fault ≠ 0) (hp : s.port = .command c :: rest) :
    stepIn lim s = .next ((({ s with port := rest }).issuedBy c.agent).respond (.faulted s.fault)) := by
  have hf' : (({ s with port := rest }).issuedBy c.agent).fault ≠ 0 := hf
  cases hd : decode c.cmd c.opnd c.now with
  | ok i => rw [stepIn, stepBy_of_legal hp hd, execIn_eq_performed, performed_of_fault hf']; rfl
  | error e => rw [stepIn, stepBy_of_illegal hp hd, execIllegal, performed_of_fault hf']; rfl

theorem step_of_fault (hf : s.fault ≠ 0) (hp : s.port = .command c :: rest) :
    step s = .next ((({ s with port := rest }).issuedBy c.agent).respond (.faulted s.fault)) :=
  (stepIn_limits s).symm.trans (stepIn_of_fault Config.limits hf hp)

/-- Without a fault a word of no command is answered `IllegalOp` (43_control.md R161). -/
theorem step_of_illegal_of_no_fault {e : DecodeError} (hf : s.fault = 0) (hp : s.port = .command c :: rest)
    (hd : decode c.cmd c.opnd c.now = .error e) :
    step s = .next ((({ s with port := rest }).issuedBy c.agent).raiseError .illegalOp) := by
  have hf' : (({ s with port := rest }).issuedBy c.agent).fault = 0 := hf
  rw [step_of_illegal hp hd, execIllegal_eq, if_pos hf']

end

/-- Settles O38: the answer keeps `FAULT`, which a complete run has at 0. -/
theorem faultedBlockIsStuck : Obligations.FaultedBlockIsStuck := by
  intro lim c rest s hf hp
  have hstep := step_of_fault hf hp
  refine ⟨hstep, (stepIn_of_fault lim hf hp).trans hstep.symm, fun t ht ⟨_, hzero, _⟩ => ?_⟩
  rw [hstep] at ht
  cases ht
  exact hf hzero

/-- No command clears the refusal mark (60_exceptions.md R177). -/
theorem exec_keeps_mark {i : Instr} {s t : State} (hm : s.refusal = true) (h : exec i s = .next t) :
    t.refusal = true := by
  obtain ⟨_, rfl⟩ | ⟨_, _, hr⟩ | ⟨_, _, rfl⟩ := exec_cases h
  · exact hm
  · obtain ⟨_, _, _, _, _, hmark⟩ := ruleOf_frame hr
    exact hmark.trans hm
  · rfl

/-- No step clears the refusal mark, a power-on reset's neither (log entry 12). -/
theorem step_keeps_mark {s t : State} (hm : s.refusal = true) (h : step s = .next t) : t.refusal = true := by
  obtain ⟨_, hstep⟩ | ⟨_, _, hstep⟩ | ⟨c, rest, _, _, _, hstep⟩ | ⟨c, rest, _, _, _, hstep⟩ := step_cases s <;>
    rw [hstep] at h
  · cases h; exact hm
  · cases h; exact hm
  · have hm' : (({ s with port := rest }).issuedBy c.agent).refusal = true := hm
    exact exec_keeps_mark hm' h
  · rw [execIllegal_eq] at h
    cases h
    split <;> exact hm

/-- Settles O40: a refusal sets the mark, `step_keeps_mark` keeps it, and a complete run has none. -/
theorem refusedCommandPerformsNothing : Obligations.RefusedCommandPerformsNothing := by
  refine ⟨fun i s hf ha => exec_of_refused hf ha, fun s t hm h => ?_⟩
  have hm' := step_keeps_mark hm h
  exact ⟨hm', fun ⟨_, _, hnone⟩ => by simp [hm'] at hnone⟩

/-- Settles O41: one case for each outcome, in the order of 60_exceptions.md R178. -/
theorem priorityOfOutcomes : Obligations.PriorityOfOutcomes := by
  intro c rest s hp
  by_cases hf : s.fault = 0
  · rw [if_neg (not_not.mpr hf)]
    cases hd : decode c.cmd c.opnd c.now with
    | error e => exact step_of_illegal_of_no_fault hf hp hd
    | ok i =>
      rw [step_of_legal hp hd]
      by_cases ha : mayIssue c.agent i = true
      · exact (if_pos ha).symm
      · exact Eq.trans (exec_of_refused hf (eq_false_of_ne_true ha)) (if_neg ha).symm
  · rw [if_pos hf]
    exact step_of_fault hf hp

/-- Settles O43: with unbounded limits no rule writes `FAULT`, and a power-on reset writes 0. -/
theorem noStepSetsFault : Obligations.NoStepSetsFault := fun _ _ => step_keeps_fault_zero

/-- Settles O48, by induction on the number of steps, each of which finds the port empty. -/
theorem stateIsKeptBetweenCommands : Obligations.StateIsKeptBetweenCommands := by
  intro n s hp
  induction n with
  | zero => exact runSteps_zero s
  | succ n ih => rw [runSteps_succ_of_next (step_of_empty hp), ih]

end Sys2Proof.Machine
end

section
/-! PROOFS. Reset and hazards (70_reset_and_hazards.md R200, R201, R205): the power-on reset from every state, and the
way back to `Desync` from inside any frame, as the triples of byte streams of the frame's remaining bytes. -/

namespace Sys2Proof.Machine

/-- Settles O2: the next state is the power-on state with what is presented after the reset. -/
theorem powerOnResetsFromEveryState : Obligations.PowerOnResetsFromEveryState := fun _ _ hp =>
  ⟨_, step_of_powerOn hp, rfl, rfl, rfl, rfl, rfl, rfl, rfl, rfl⟩

/-- The next `n + 1` bytes, whatever they are, end the frame that still lacks `n` payload bytes
(40_deframer.md R99). -/
theorem takes_restOfFrame {l : Byte} {xs bytes : List Byte} {n : Nat} (hn : xs.length + n = l.toNat)
    (hlt : n < bytes.length) : ∃ rs, Takes (Accumulated l xs) (bytes.take (n + 1)) rs FrameEnded := by
  have htake : (bytes.take n).length = n := List.length_take_of_le hlt.le
  have hpayload : (xs ++ bytes.take n).length = l.toNat := by rw [List.length_append, htake, hn]
  rw [← List.take_concat_get' bytes n hlt]
  exact ⟨_, (takes_payload (by rw [htake, hn])).append (takes_checksum hpayload bytes[n])⟩

/-- In `Synced` the next byte says how many bytes end the frame (40_deframer.md R99). -/
theorem takes_wholeFrame {l : Byte} {bytes : List Byte} (hlt : l.toNat < bytes.length) :
    ∃ rs, Takes (SoundAt .synced) ((l :: bytes).take (l.toNat + 2)) rs FrameEnded := by
  obtain ⟨_, h⟩ := takes_restOfFrame (xs := []) (Nat.zero_add l.toNat) hlt
  exact ⟨_, (takes_length l).append h⟩

/-- In a sound state past the length byte, `DBUF[0..DCNT)` has been accumulated, of at most `DLEN` bytes
(10_state.md R31). -/
theorem accumulated_of_stateInv {s : State} (hs : StateInv s) (hd : s.dstate = .reading ∨ s.dstate = .verifyChecksum) :
    s.dcnt.toNat ≤ s.dlen.toNat ∧ Accumulated s.dlen (Memory.prefixBytes s.dbuf s.dcnt.toNat) s := by
  obtain ⟨⟨_, hreading, hverify⟩, _, hwf⟩ := hs
  rw [Accumulated, Memory.prefixBytes_length]
  obtain hd | hd := hd
  · obtain ⟨_, hlt⟩ := hreading hd
    exact ⟨hlt.le, hd.trans (if_neg hlt.ne).symm, rfl, rfl, hwf, rfl⟩
  · have heq : s.dcnt.toNat = s.dlen.toNat := congrArg BitVec.toNat (hverify hd)
    exact ⟨heq.le, hd.trans (if_pos heq).symm, rfl, rfl, hwf, rfl⟩

/-- A run over the first `k` bytes, when they end the frame, leaves the others presented. -/
theorem runSteps_of_takes_frameEnded {P : State → Prop} {bytes : List Byte} {k : Nat} {rs : List Response} {s : State}
    {rest : List Stimulus} (h : Takes P (bytes.take k) rs FrameEnded) (hP : P s) (hk : k ≤ bytes.length)
    (hf : s.fault = 0) (hp : s.port = feed bytes ++ rest) :
    ∃ t, runSteps k s = .next t ∧ t.dstate = .desync ∧ t.port = feed (bytes.drop k) ++ rest := by
  rw [← List.take_append_drop k bytes, feed_append, List.append_assoc] at hp
  obtain ⟨t, ht, ⟨hdesync, _⟩, _⟩ := h s _ hf hp hP
  have hrun := ht.run
  rw [List.length_take_of_le hk] at hrun
  exact ⟨t, hrun, hdesync, ht.port⟩

/-- Settles O14: in `Synced` a length byte, at most 255 payload bytes and the checksum byte end the frame; further in,
what is left of them. -/
theorem deframerRecoversWithin257Bytes : Obligations.DeframerRecoversWithin257Bytes := by
  intro bytes s rest hs hf hd hlen hp
  obtain hsynced | hinside := hd
  · obtain ⟨_, _, hwf⟩ := hs
    obtain ⟨l, tail, rfl⟩ := List.exists_cons_of_length_eq_add_one hlen
    have hl := l.isLt
    rw [List.length_cons] at hlen
    obtain ⟨_, htakes⟩ := takes_wholeFrame (l := l) (bytes := tail) (by omega)
    obtain ⟨t, ht⟩ := runSteps_of_takes_frameEnded htakes ⟨hsynced, hwf⟩ (by rw [List.length_cons]; omega) hf hp
    exact ⟨l.toNat + 2, t, by omega, by omega, ht⟩
  · obtain ⟨hle, hacc⟩ := accumulated_of_stateInv hs hinside
    have hl := s.dlen.isLt
    have hleft : (Memory.prefixBytes s.dbuf s.dcnt.toNat).length + (s.dlen.toNat - s.dcnt.toNat) = s.dlen.toNat := by
      rw [Memory.prefixBytes_length, Nat.add_sub_cancel' hle]
    obtain ⟨_, htakes⟩ := takes_restOfFrame (bytes := bytes) hleft (by omega)
    obtain ⟨t, ht⟩ := runSteps_of_takes_frameEnded htakes hacc (by omega) hf hp
    exact ⟨s.dlen.toNat - s.dcnt.toNat + 1, t, by omega, by omega, ht⟩

end Sys2Proof.Machine
end
